-- ==== Sys2Proof/Word.lean ====
section
/-! DEFINITION. The two word types of the machine (spec/00_scope.md R3, R5). -/

namespace Sys2Proof

/-- An 8-bit quantity: a memory cell, `register`, `bcd`, an instruction byte (R5). -/
abbrev Byte := BitVec 8

/-- A 4-bit quantity: an operand, a cell address, a program counter value (R3: OPERAND_BITS, ADDR_BITS, PC_BITS). -/
abbrev Nibble := BitVec 4

end Sys2Proof
end

