-- ==== Sys2Proof/Machine/Operands.lean ====
section
/-! DEFINITION. The three uses of the operand and the signed reading of a byte (spec/30_encoding.md R35,
spec/43_memory_transfer.md R62, spec/00_scope.md R5). -/

namespace Sys2Proof.Machine

/-- The immediate of Add and And: the operand zero-extended to a byte (30_encoding.md R35). -/
def immediate (n : Nibble) : Byte := n.setWidth 8

/-- The cell a memory operand addresses: the one addressing mode, absolute direct, `ea = n` (43_memory_transfer.md R62). -/
def effectiveAddress (n : Nibble) : Nibble := n

/-- The new pc of a jump: the operand as it stands (30_encoding.md R35, 44_jump.md R63). -/
def jumpTarget (n : Nibble) : Nibble := n

/-- The signed reading of a byte: `uint(b)` if bit 7 is 0, else `uint(b) - 256` (00_scope.md R5). -/
def sint (b : Byte) : Int := if b.getLsbD 7 then (b.toNat : Int) - 256 else b.toNat

end Sys2Proof.Machine
end

