-- ==== Sys2Proof/Syntax.lean ====
section
/-! DEFINITION. Instruction values: what the decoder returns (spec/30_encoding.md R32, R34, R36). -/

namespace Sys2Proof

/-- The eight kinds, each with its 4-bit operand, in the fixed opcode order of R34. There is no ninth kind (R42):
the no-op is a notation of the assembler and is `add 0`. -/
inductive Instr where
  /-- `Add(n)`, opcode 0 (41_alu_add_and.md R54). -/
  | add (n : Nibble)
  /-- `And(n)`, opcode 1 (41_alu_add_and.md R55). -/
  | and (n : Nibble)
  /-- `Shl(n)`, opcode 2 (42_shift_shl.md R57). -/
  | shl (n : Nibble)
  /-- `Disp(n)`, opcode 3 (43_memory_transfer.md R59). -/
  | disp (n : Nibble)
  /-- `Load(n)`, opcode 4 (43_memory_transfer.md R60). -/
  | load (n : Nibble)
  /-- `Str(n)`, opcode 5 (43_memory_transfer.md R61). -/
  | str (n : Nibble)
  /-- `Jmp(n)`, opcode 6 (44_jump.md R63). -/
  | jmp (n : Nibble)
  /-- `Jz(n)`, opcode 7, reserved: decodes like any other, faults when executed (44_jump.md R64). -/
  | jz (n : Nibble)
  deriving DecidableEq, Repr

end Sys2Proof
end

