-- ==== Sys2Proof/Assembly.lean ====
section
/-! DEFINITION. The assembler's side of the codec: kinds, instruction values with an operand not yet checked, and the
two error conditions of the host software (spec/30_encoding.md R39, R40, R42; spec/60_exceptions.md R72). -/

namespace Sys2Proof

/-- The eight operations, without an operand (00_scope.md glossary, Kind). -/
inductive Kind where
  | add | and | shl | disp | load | str | jmp | jz
  deriving DecidableEq, Repr

/-- An instruction value as the assembler is given it: the operand is any integer, so that the values `encode` must
refuse can be written (R40), and the fill `Nop` is a value of its own (R42). -/
inductive AsmValue where
  /-- `Kind(n)`. -/
  | value (kind : Kind) (operand : Int)
  /-- `Nop`, the pseudo-instruction. -/
  | nop
  deriving DecidableEq, Repr

/-- The error conditions of `encode` and of the Program Loader. Host software only, never raised by a step (R72). -/
inductive AsmError where
  /-- An operand does not fit the 4-bit field (30_encoding.md R40). -/
  | operandOutOfRange
  /-- The Loader was not given exactly 16 values (70_reset_and_hazards.md R81). -/
  | programSizeMismatch
  deriving DecidableEq, Repr

/-- The kind of an instruction value. -/
def Instr.kind : Instr → Kind
  | .add _ => .add | .and _ => .and | .shl _ => .shl | .disp _ => .disp
  | .load _ => .load | .str _ => .str | .jmp _ => .jmp | .jz _ => .jz

/-- The operand of an instruction value. -/
def Instr.operand : Instr → Nibble
  | .add n => n | .and n => n | .shl n => n | .disp n => n
  | .load n => n | .str n => n | .jmp n => n | .jz n => n

/-- The decoded instruction written in the assembler's form. -/
def AsmValue.ofInstr (i : Instr) : AsmValue := .value i.kind i.operand.toNat

/-- The kind of byte an assembler value names: `Nop` is an `Add` (R42). -/
def AsmValue.kind : AsmValue → Kind
  | .value k _ => k
  | .nop => .add

/-- The operand an assembler value names: `Nop` is `Add(0)` (R42). -/
def AsmValue.operand : AsmValue → Int
  | .value _ n => n
  | .nop => 0

end Sys2Proof
end

