-- ==== Sys2Proof/Config.lean ====
section
/-! DEFINITION. The fixed parameters of the hardware (spec/00_scope.md R3). The two open parameters of R4,
IMAGE and MAX_STEPS, are arguments of the host's operations (Machine/HostOps.lean), not constants. -/

namespace Sys2Proof.Config

/-- MEM_CELLS, the number of memory cells (00_scope.md R3, 10_state.md R7). -/
def memCells : Nat := 16

/-- What every cell holds after reset, and so what an unlisted cell reads as (10_state.md R16). -/
def resetByte : Byte := 0x00#8

end Sys2Proof.Config
end

