-- ==== Sys2Proof/WellFormed.lean ====
section
/-! DEFINITION. What the assembler and the Loader accept (spec/30_encoding.md R40, spec/70_reset_and_hazards.md R80, R81).
An `Instr` has a 4-bit operand by type (R36), so each `Instr` is well formed; the checks bite on assembler values. -/

namespace Sys2Proof

/-- The operand fits the 4-bit field, for every kind alike: `0 <= n <= 15` (R40). -/
def AsmValue.wellFormed (v : AsmValue) : Bool := decide (0 ≤ v.operand ∧ v.operand ≤ 15)

/-- A program the Loader takes: exactly 16 values (R80), each encodable (R81). -/
def programWellFormed (p : List AsmValue) : Bool :=
  p.length == Config.memCells && p.all AsmValue.wellFormed

/-- An instruction value is well formed when the assembler can encode it. -/
def Instr.wellFormed (i : Instr) : Bool := (AsmValue.ofInstr i).wellFormed

end Sys2Proof
end

