-- ==== Sys2Proof/Decode.lean ====
section
/-! DEFINITION. The instruction decoder and the assembler's encoder (spec/30_encoding.md R31 to R42). -/

namespace Sys2Proof

/-- Bits 6 to 4 of an instruction byte (R31). -/
def opcodeField (b : Byte) : BitVec 3 := b.extractLsb' 4 3

/-- Bits 3 to 0 of an instruction byte (R31, R35). -/
def operandField (b : Byte) : Nibble := b.extractLsb' 0 4

/-- "Map opcode 0..7 to {Add, And, Shl, Disp, Load, Str, Jmp, Jz} in that fixed order" (R34). -/
def kindOfOpcode (o : BitVec 3) : Kind :=
  match o.toFin with
  | 0 => .add
  | 1 => .and
  | 2 => .shl
  | 3 => .disp
  | 4 => .load
  | 5 => .str
  | 6 => .jmp
  | 7 => .jz

/-- The instruction value `Kind(n)`. -/
def Kind.instr : Kind → Nibble → Instr
  | .add, n => .add n
  | .and, n => .and n
  | .shl, n => .shl n
  | .disp, n => .disp n
  | .load, n => .load n
  | .str, n => .str n
  | .jmp, n => .jmp n
  | .jz, n => .jz n

/-- The decoder (R32): total on all 256 bytes (R36), bit 7 not looked at (R33). -/
def decode (b : Byte) : Instr := (kindOfOpcode (opcodeField b)).instr (operandField b)

/-- The opcode index of a kind: its place in the order of R34. -/
def Kind.index : Kind → Nat
  | .add => 0 | .and => 1 | .shl => 2 | .disp => 3 | .load => 4 | .str => 5 | .jmp => 6 | .jz => 7

/-- The opcode of a kind as the 3-bit field holds it (R34). -/
def Kind.opcode (k : Kind) : BitVec 3 := BitVec.ofNat 3 k.index

/-- The canonical byte of an instruction value: bit 7 clear, then the opcode, then the operand (R31, R34). -/
def encode (i : Instr) : Byte := (0#1 ++ i.kind.opcode) ++ i.operand

/-- The assembler's `encode` (R40): `operand + 16*opcode_index` when the operand is 0 to 15, and otherwise
OperandOutOfRange and no byte. `Nop` gives `0x00` (R42). -/
def AsmValue.encode (v : AsmValue) : Except AsmError Byte :=
  if v.wellFormed then .ok (BitVec.ofInt 8 (v.operand + 16 * v.kind.index))
  else .error .operandOutOfRange

/-- The name of a kind as the notation of R39 spells it. -/
def Kind.name : Kind → String
  | .add => "Add" | .and => "And" | .shl => "Shl" | .disp => "Disp"
  | .load => "Load" | .str => "Str" | .jmp => "Jmp" | .jz => "Jz"

/-- The notation of R39: the capitalised kind and the operand in decimal between parentheses; `Nop` for the fill. -/
def AsmValue.render : AsmValue → String
  | .value k n => k.name ++ "(" ++ toString n ++ ")"
  | .nop => "Nop"

/-- The first byte of a table word of `nbits` bits; bits above `nbits` count as 0. The instruction is this one byte
(R31, R38). -/
def tableByte (nbits w : Nat) : Byte := BitVec.ofNat 8 (w % 2 ^ nbits)

/-- The host's reading of an opcode-table word through the decoder, which refuses no byte (R36). -/
def decodeTableWord (nbits w : Nat) : Option Instr := some (decode (tableByte nbits w))

end Sys2Proof
end

