-- ==== Sys2Proof/Machine/Alu.lean ====
section
/-! DEFINITION. The three computing operations and the program counter's arithmetic (spec/41_alu_add_and.md R56,
spec/42_shift_shl.md R57, spec/40_engine_cycle.md R47). None records a flag (spec/10_state.md R13). -/

namespace Sys2Proof.Machine

/-- 8-bit addition, the carry out of bit 7 dropped (R54, R56). -/
def aluAdd (a b : Byte) : Byte := a + b

/-- Bitwise AND (R55, R56). -/
def aluAnd (a b : Byte) : Byte := a &&& b

/-- Shift left by one: bit 7 lost, bit 0 filled with 0 (R56, R57). -/
def aluShl (m : Byte) : Byte := m <<< 1

/-- The default advance, `(pc + 1) mod 16` (R47). -/
def nextPc (p : Nibble) : Nibble := p + 1#4

end Sys2Proof.Machine
end

