-- ==== Sys2Proof/Machine/State.lean ====
section
/-! DEFINITION. The machine's state: the six elements of spec/10_state.md R6 and nothing else, and the state after reset
(R16). -/

namespace Sys2Proof.Machine

/-- The memory: the cells that do not hold `0x00`, as (address, byte) pairs with the addresses strictly rising. A cell
not listed reads as `Config.resetByte`, the value R16 gives every cell at reset (log entry 1). -/
abbrev Memory := List Host.Cell

/-- The run state (10_state.md R11). -/
inductive RunState where
  | running
  | halted
  deriving DecidableEq, Repr

/-- The hardware's one fault (60_exceptions.md R66). Taking it is a NEXT state of the machine, Halted with this value
in its `fault` element (R70), so no step of this model ends in `Host.Outcome.fault`. -/
inductive Fault where
  /-- Raised by `execJz` alone, and recorded by it in `State.fault`: the pc of the Jz cell and the byte there, bit 7
  included (60_exceptions.md R67). As an outcome of a step it is raised by nothing. Safe: nothing stops short. -/
  | unimplementedOpcode (faultPc : Nibble) (faultByte : Byte)
  deriving DecidableEq, Repr

/-- Why a step may be refused. The spec gives every instruction an effect, so no meaning refuses. -/
inductive Refusal where
  /-- An instruction that has no meaning in this model, by its mnemonic. Raised by nothing: every arm of `exec` has its
  meaning. Safe. -/
  | notModelled (mnemonic : String)
  deriving DecidableEq, Repr

/-- The complete state (10_state.md R6). -/
structure State where
  /-- The 16 cells (R7). -/
  memory : Memory
  /-- The accumulator (R8). -/
  register : Byte
  /-- The display latch (R9). -/
  bcd : Byte
  /-- The program counter (R10). -/
  pc : Nibble
  /-- Running or Halted (R11). -/
  runState : RunState
  /-- The fault record: none while Running (R12). -/
  fault : Option Fault
  deriving DecidableEq, Repr

/-- The state after reset (10_state.md R16, 70_reset_and_hazards.md R79). -/
def State.reset : State where
  memory := []
  register := 0x00#8
  bcd := 0x00#8
  pc := 0x0#4
  runState := .running
  fault := none

end Sys2Proof.Machine
end

