-- ==== Sys2Proof/Machine/Ops.lean ====
section
/-! DEFINITION. The named operations over memory and registers, fetching, and taking the one fault
(spec/20_memory.md R19, R20, spec/40_engine_cycle.md R44 to R50, spec/60_exceptions.md R70). -/

namespace Sys2Proof.Machine

/-- The byte at an address: that of its entry, or the reset contents where there is none. -/
def Memory.read (m : Memory) (a : Nat) : Byte :=
  match m with
  | [] => Config.resetByte
  | c :: rest => if c.1 = a then c.2 else Memory.read rest a

/-- The memory without any entry for an address. -/
def Memory.erase (m : Memory) (a : Nat) : Memory := m.filter (fun c => c.1 ≠ a)

/-- Put a cell before the first entry of a higher address. -/
def Memory.insertCell (m : Memory) (c : Host.Cell) : Memory :=
  match m with
  | [] => [c]
  | d :: rest => if c.1 < d.1 then c :: d :: rest else d :: Memory.insertCell rest c

/-- Write one byte, keeping the canonical form: the reset contents are never listed. -/
def Memory.write (m : Memory) (a : Nat) (v : Byte) : Memory :=
  if v = Config.resetByte then Memory.erase m a else Memory.insertCell (Memory.erase m a) (a, v)

/-- The canonical form: addresses strictly rising, each of them a cell of the machine, and no entry equal to what an
unlisted cell reads as. -/
abbrev Memory.wf (m : Memory) : Prop :=
  m.Pairwise (fun c d => c.1 < d.1) ∧ ∀ c ∈ m, c.1 < Config.memCells ∧ c.2 ≠ Config.resetByte

/-- `MemRead(a, 1)`: the byte `memory[a]`; it never fails (20_memory.md R20). -/
def State.memRead (s : State) (a : Nibble) : Byte := Memory.read s.memory a.toNat

/-- `MemWrite(a, 1, v)`: `memory[a]` becomes `v`, nothing else changes; it never fails (20_memory.md R20). -/
def State.memWrite (s : State) (a : Nibble) (v : Byte) : State :=
  { s with memory := Memory.write s.memory a.toNat v }

/-- `register <- v`. -/
def State.setRegister (s : State) (v : Byte) : State := { s with register := v }

/-- `bcd <- v`. -/
def State.setBcd (s : State) (v : Byte) : State := { s with bcd := v }

/-- `pc <- t`. -/
def State.setPc (s : State) (t : Nibble) : State := { s with pc := t }

/-- `pc <- (pc + 1) mod 16`, the default advance (40_engine_cycle.md R47). -/
def State.advance (s : State) : State := s.setPc (nextPc s.pc)

/-- Taking the fault, `raise UnimplementedOpcode(p, b)`: the engine halts with the record, and `pc`, `register`, `bcd`
and all cells keep their values (44_jump.md R64, 60_exceptions.md R70). -/
def State.raiseUnimplementedOpcode (s : State) (p : Nibble) (b : Byte) : State :=
  { s with runState := .halted, fault := some (.unimplementedOpcode p b) }

/-- Fetch: `b = memory[pc]`, with `pc` as it stands at the start of the step (40_engine_cycle.md R45). -/
def State.fetchByte (s : State) : Byte := s.memRead s.pc

/-- Fetch and decode (40_engine_cycle.md R45, R46). -/
def State.fetchInstr (s : State) : Instr := decode s.fetchByte

/-- `run_state = Halted` (10_state.md R11). -/
def State.isHalted (s : State) : Bool := decide (s.runState = .halted)

/-- What a step while Halted leaves: the state unchanged (40_engine_cycle.md R50). -/
def State.heldWhileHalted (s : State) : State := s

/-- The state in which the very next step fetches the byte `b`: `b` in the cell at `pc`, and the engine Running, since
a Halted engine fetches nothing (R50). For the host's probe only, no operation of the hardware (log entry 9). -/
def State.withFetchByte (s : State) (b : Byte) : State :=
  { s.memWrite s.pc b with runState := .running, fault := none }

end Sys2Proof.Machine
end

