-- ==== Sys2Proof/Machine/Arith.lean ====
section
/-! DEFINITION. Accumulator arithmetic and logic: Add, And (spec/41_alu_add_and.md). -/

namespace Sys2Proof.Machine

/-- Add(n): `register <- (register + zext_8(n)) mod 256 ; pc <- (pc + 1) mod 16` (R54). -/
def execAdd (n : Nibble) (s : State) : Host.Outcome State Fault Refusal :=
  .next (s.setRegister (aluAdd s.register (immediate n))).advance

/-- And(n): `register <- register & zext_8(n) ; pc <- (pc + 1) mod 16` (R55). -/
def execAnd (n : Nibble) (s : State) : Host.Outcome State Fault Refusal :=
  .next (s.setRegister (aluAnd s.register (immediate n))).advance

end Sys2Proof.Machine
end

