-- ==== Sys2Proof/Machine/Jump.lean ====
section
/-! DEFINITION. Control transfer: Jmp, Jz (spec/44_jump.md). -/

namespace Sys2Proof.Machine

/-- Jmp(n): `pc <- n`, the default advance not applied (R63). -/
def execJmp (n : Nibble) (s : State) : Host.Outcome State Fault Refusal :=
  .next (s.setPc (jumpTarget n))

/-- Jz(n): reserved; raises UnimplementedOpcode(pc, b), where `b` is the byte in the cell at `pc`, the operand unused
(R64). DEDUCED: `exec` is not given the fetched byte, so it is read again; nothing can come between (log entry 3). -/
def execJz (_n : Nibble) (s : State) : Host.Outcome State Fault Refusal :=
  .next (s.raiseUnimplementedOpcode s.pc s.fetchByte)

end Sys2Proof.Machine
end

