-- ==== Sys2Proof/Machine/Shift.lean ====
section
/-! DEFINITION. Shift: Shl (spec/42_shift_shl.md). -/

namespace Sys2Proof.Machine

/-- Shl(n): `MemWrite(n, 1, MemRead(n, 1) << 1) ; pc <- (pc + 1) mod 16` (R57). -/
def execShl (n : Nibble) (s : State) : Host.Outcome State Fault Refusal :=
  .next (s.memWrite (effectiveAddress n) (aluShl (s.memRead (effectiveAddress n)))).advance

end Sys2Proof.Machine
end

