-- ==== Sys2Proof/Machine/Transfer.lean ====
section
/-! DEFINITION. Memory transfers: Disp, Load, Str (spec/43_memory_transfer.md). -/

namespace Sys2Proof.Machine

/-- Disp(n): `bcd <- MemRead(n, 1) ; pc <- (pc + 1) mod 16` (R59). -/
def execDisp (n : Nibble) (s : State) : Host.Outcome State Fault Refusal :=
  .next (s.setBcd (s.memRead (effectiveAddress n))).advance

/-- Load(n): `register <- MemRead(n, 1) ; pc <- (pc + 1) mod 16` (R60). -/
def execLoad (n : Nibble) (s : State) : Host.Outcome State Fault Refusal :=
  .next (s.setRegister (s.memRead (effectiveAddress n))).advance

/-- Str(n): `MemWrite(n, 1, register) ; pc <- (pc + 1) mod 16` (R61). -/
def execStr (n : Nibble) (s : State) : Host.Outcome State Fault Refusal :=
  .next (s.memWrite (effectiveAddress n) s.register).advance

end Sys2Proof.Machine
end

