-- ==== Sys2Proof/Machine/Dispatch.lean ====
section
/-! DEFINITION. The execute phase: one arm per kind (spec/40_engine_cycle.md R48). -/

namespace Sys2Proof.Machine

/-- Perform the state change of the decoded kind, from the state at the start of the step (R48). -/
def exec (i : Instr) (s : State) : Host.Outcome State Fault Refusal :=
  match i with
  | .add n => Sys2Proof.Machine.execAdd n s
  | .and n => Sys2Proof.Machine.execAnd n s
  | .shl n => Sys2Proof.Machine.execShl n s
  | .disp n => Sys2Proof.Machine.execDisp n s
  | .load n => Sys2Proof.Machine.execLoad n s
  | .str n => Sys2Proof.Machine.execStr n s
  | .jmp n => Sys2Proof.Machine.execJmp n s
  | .jz n => Sys2Proof.Machine.execJz n s

end Sys2Proof.Machine
end

