-- ==== Sys2Proof/Machine/Step.lean ====
section
/-! DEFINITION. One step of the engine (spec/40_engine_cycle.md R44, R50), and the host's way to place the instruction
the next step runs. -/

namespace Sys2Proof.Machine

/-- `Step` (R44): while Halted the state unchanged (R50); otherwise fetch, decode and execute one instruction. -/
def step (s : State) : Host.Outcome State Fault Refusal :=
  if s.isHalted then .next s.heldWhileHalted else exec s.fetchInstr s

/-- `s` with the table word's byte where the next step fetches (log entry 9). -/
def State.withFetchWord (s : State) (nbits w : Nat) : State := s.withFetchByte (tableByte nbits w)

end Sys2Proof.Machine
end

