-- ==== Sys2Proof/Machine/Agent.lean ====
section
/-! DEFINITION. The agents of the hardware: one, the Execution Engine (spec/00_scope.md R2, R3 NUM_AGENTS = 1). -/

namespace Sys2Proof.Machine

/-- What executes a step: the engine, the only agent and the only mutator of the state (R2). Nothing of State says which
agent moves next, since there is never a choice (20_memory.md R26). -/
inductive Agent where
  | engine
  deriving DecidableEq, Repr

/-- The step of an agent: the engine's is the one step function of the model (R2, 40_engine_cycle.md R44). -/
def Agent.step : Agent → State → Host.Outcome State Fault Refusal
  | .engine => Sys2Proof.Machine.step

end Sys2Proof.Machine
end

