-- ==== Sys2Proof/Machine/Loader.lean ====
section
/-! DEFINITION. The memory image and the Program Loader's contract (spec/70_reset_and_hazards.md R80 to R82). -/

namespace Sys2Proof.Machine

/-- IMAGE: 16 bytes, cell 0 first (00_scope.md R4). -/
abbrev Image := Vector Byte 16

/-- The named launch premise "IMAGE was produced by the Loader": bit 7 is clear in every byte (R82;
spec/92_eei_decisions.md D10, spec/93_implementation_defined.md U7). A claim about a program loaded through the Loader
takes it; `State.loadImage` does not need it. -/
abbrev Image.ProducedByLoader (image : Image) : Prop := ∀ i : Fin 16, image[i].getLsbD 7 = false

/-- Write bytes to successive cells from an address upward. -/
def Memory.storeFrom (m : Memory) (a : Nat) : List Byte → Memory
  | [] => m
  | b :: bs => Memory.storeFrom (Memory.write m a b) (a + 1) bs

/-- The hardware's `Load(IMAGE)`: `memory[i] <- IMAGE[i]` for i = 0..15 and nothing else (R80); any 16 bytes (R82). -/
def State.loadImage (s : State) (image : Image) : State :=
  { s with memory := Memory.storeFrom s.memory 0 image.toList }

/-- Encode the values of a program in order; the first that is not encodable stops it (R80, R81). -/
def encodeAll : List AsmValue → Except AsmError (List Byte)
  | [] => .ok []
  | v :: vs =>
    match v.encode, encodeAll vs with
    | .ok b, .ok bs => .ok (b :: bs)
    | .error e, _ => .error e
    | .ok _, .error e => .error e

/-- The Loader's product: `IMAGE[i] = encode(program[i])`, or ProgramSizeMismatch when there are not exactly 16
values, or OperandOutOfRange from `encode` (R80, R81). DESIGN CHOICE: the length is looked at first (log entry 8). -/
def assembleImage (p : List AsmValue) : Except AsmError Image :=
  if p.length = Config.memCells then
    match encodeAll p with
    | .ok bs => if h : bs.length = 16 then .ok ⟨bs.toArray, by simpa using h⟩ else .error .programSizeMismatch
    | .error e => .error e
  else .error .programSizeMismatch

/-- The Program Loader: on success the image is in memory; on failure no cell is written (R81). -/
def State.loadProgram (s : State) (p : List AsmValue) : Except AsmError State :=
  match assembleImage p with
  | .ok image => .ok (s.loadImage image)
  | .error e => .error e

end Sys2Proof.Machine
end

