-- ==== Sys2Proof/Machine/HostOps.lean ====
section
/-! DEFINITION. The host interface: Reset, Load, Step, Snapshot, their lifecycle, and a run under a step limit
(spec/40_engine_cycle.md R51, R52, spec/10_state.md R17). The host's own variables stand here, not in State. -/

namespace Sys2Proof.Machine

/-- What `Snapshot` returns (R51, 60_exceptions.md R77): the 16 cells in address order and the five other elements. -/
structure Snapshot where
  memory : Image
  register : Byte
  bcd : Byte
  pc : Nibble
  runState : RunState
  fault : Option Fault
  deriving DecidableEq, Repr

/-- `Snapshot`: a read-only view of every state element (R51). -/
def State.snapshot (s : State) : Snapshot where
  memory := Vector.ofFn fun (i : Fin 16) => s.memRead (BitVec.ofFin i)
  register := s.register
  bcd := s.bcd
  pc := s.pc
  runState := s.runState
  fault := s.fault

/-- `Reset`: every state element takes its reset value, whatever the state was (R51, 70_reset_and_hazards.md R79). -/
def State.resetOp (_s : State) : State := State.reset

/-- The operations by which the host reaches the block, and no others (R51). -/
inductive HostOp where
  | reset
  | load (image : Image)
  | step
  | snapshot
  deriving DecidableEq, Repr

/-- Where the host stands in the lifecycle (10_state.md R17, 40_engine_cycle.md R51). -/
inductive Phase where
  /-- After `Reset`, nothing loaded. -/
  | unloaded
  /-- After `Load`, before the first `Step`. -/
  | loaded
  /-- From the first `Step` on. -/
  | stepping
  deriving DecidableEq, Repr

/-- The machine with the host's place in the lifecycle. -/
structure Session where
  machine : State
  phase : Phase
  deriving DecidableEq, Repr

/-- The session right after `Reset`. -/
def Session.start : Session := ⟨State.reset, .unloaded⟩

/-- The session after the engine has taken a step of its machine. -/
def Session.stepped (c : Session) : Option Session :=
  match Agent.engine.step c.machine with
  | .next t => some ⟨t, .stepping⟩
  | .fault _ => none
  | .refused _ => none

/-- One operation of the host, or `none` where the lifecycle gives it no move: `Load` once, after `Reset` and before
the first `Step`; `Step` after `Load`; `Reset` and `Snapshot` at any time (R51; spec/92_eei_decisions.md D17). -/
def Session.apply (c : Session) (op : HostOp) : Option Session :=
  match op, c.phase with
  | .reset, _ => some ⟨c.machine.resetOp, .unloaded⟩
  | .load image, .unloaded => some ⟨c.machine.loadImage image, .loaded⟩
  | .load _, .loaded => none
  | .load _, .stepping => none
  | .step, .unloaded => none
  | .step, .loaded => c.stepped
  | .step, .stepping => c.stepped
  | .snapshot, _ => some c

/-- Several host operations in order. -/
def Session.applyAll (c : Session) : List HostOp → Option Session
  | [] => some c
  | op :: ops =>
    match c.apply op with
    | some d => Session.applyAll d ops
    | none => none

/-- The termination signal of a run (R52). -/
inductive Termination where
  /-- MAX_STEPS steps have been applied. Not an error. -/
  | stepLimitReached
  /-- A step raised UnimplementedOpcode and the engine is Halted. -/
  | unimplementedOpcode
  deriving DecidableEq, Repr

/-- What the driver has at the end of a run: the last state, the steps it took, and the signal. -/
structure RunResult where
  state : State
  stepsTaken : Nat
  signal : Termination
  deriving DecidableEq, Repr

/-- A run of at most `maxSteps` steps from a loaded machine (R52): it ends at the step limit, or with the step that
leaves the engine Halted. DESIGN CHOICE: when that step is also the last allowed one, the signal is the fault's
(log entry 7). `taken` counts the steps already applied. -/
def State.runFor (s : State) (maxSteps : Nat) (taken : Nat) : Host.Outcome RunResult Fault Refusal :=
  match maxSteps with
  | 0 => .next ⟨s, taken, .stepLimitReached⟩
  | k + 1 =>
    match Agent.engine.step s with
    | .next t => if t.isHalted then .next ⟨t, taken + 1, .unimplementedOpcode⟩ else State.runFor t k (taken + 1)
    | .fault r => .fault r
    | .refused r => .refused r

/-- The run of R52: Reset, then Load(IMAGE), then at most MAX_STEPS steps. -/
def runImage (image : Image) (maxSteps : Nat) : Host.Outcome RunResult Fault Refusal :=
  (State.reset.loadImage image).runFor maxSteps 0

end Sys2Proof.Machine
end

