-- ==== Sys2Proof/Safety.lean ====
section
/-! DEFINITION. What holds of every reachable state, in the terms claims use (spec/10_state.md R12,
spec/60_exceptions.md R66, R67), and the pseudocode of spec/40_engine_cycle.md R44 over the host's snapshot, for the
refinement claim. -/

namespace Sys2Proof.Machine

/-- `fault = none` exactly while Running, and in a Halted state the record is the pc and the byte of the cell it is on
(10_state.md R12, 60_exceptions.md R67), which holds a Jz byte (R66). -/
def State.FaultConsistent (s : State) : Prop :=
  match s.runState with
  | .running => s.fault = none
  | .halted => s.fault = some (.unimplementedOpcode s.pc (s.memRead s.pc)) ∧ (decode (s.memRead s.pc)).kind = .jz

/-- The invariant of the machine: canonical memory, and a fault record that agrees with the run state. -/
def State.Inv (s : State) : Prop := Memory.wf s.memory ∧ s.FaultConsistent

/-- The `case kind of` lines of the pseudocode in 40_engine_cycle.md R44 on what the host sees, a vector of 16 cells and
the five other elements, with every sum taken in the natural numbers and reduced (R54, R57, R47). `b` is the byte
fetched, `n` the operand. -/
def Snapshot.pseudocodeCase (s : Snapshot) (b : Byte) (opcode : Nat) (n : Nibble) : Snapshot :=
  let next := BitVec.ofNat 4 ((s.pc.toNat + 1) % 16)
  match opcode with
  | 0 => { s with register := BitVec.ofNat 8 ((s.register.toNat + n.toNat) % 256), pc := next }
  | 1 => { s with register := s.register &&& BitVec.ofNat 8 n.toNat, pc := next }
  | 2 => { s with memory := s.memory.set n.toNat (BitVec.ofNat 8 (2 * s.memory[n.toNat].toNat % 256)), pc := next }
  | 3 => { s with bcd := s.memory[n.toNat], pc := next }
  | 4 => { s with register := s.memory[n.toNat], pc := next }
  | 5 => { s with memory := s.memory.set n.toNat s.register, pc := next }
  | 6 => { s with pc := n }
  | _ => { s with runState := .halted, fault := some (.unimplementedOpcode s.pc b) }

/-- The pseudocode of `Step` in R44, the decoder's arithmetic being that of 30_encoding.md R32: `v` is the low seven
bits of the byte, `opcode = v div 16`, `n = v mod 16`. -/
def Snapshot.pseudocodeStep (s : Snapshot) : Snapshot :=
  match s.runState with
  | .halted => s
  | .running =>
    let b := s.memory[s.pc.toNat]
    let v := b.toNat % 128
    s.pseudocodeCase b (v / 16) (BitVec.ofNat 4 (v % 16))

end Sys2Proof.Machine
end

