-- ==== Sys2Proof/Certificates/Slice0/Obligations.lean ====
section
/-! DEFINITION. The statements for the provers. Each cites the rule of spec/ it formalises, or says what it rests on. -/

open Sys2Proof Sys2Proof.Machine

/-! ## The codec -/

/-- 30_encoding.md R32: bit 7 is masked off, the low seven bits are split by 16, and the quotient selects the kind.
For a byte whose signed reading is negative the low seven bits are `sint(b) + 128`. -/
def Obligations.DecodeSplitsLowSevenBits : Prop :=
  ∀ b : Byte,
    let v := b.toNat % 128
    [Kind.add, .and, .shl, .disp, .load, .str, .jmp, .jz][v / 16]? = some (decode b).kind ∧
    (decode b).operand.toNat = v % 16 ∧
    decode b = (decode b).kind.instr (decode b).operand ∧
    (v : Int) = if sint b < 0 then sint b + 128 else sint b

/-- 30_encoding.md R34: the eight rows of the opcode map, by mask and match, and the canonical byte of `Kind(n)`. -/
def Obligations.OpcodeMapRows : Prop :=
  (∀ b : Byte,
    (b &&& 0x70#8 = 0x00#8 ↔ (decode b).kind = .add) ∧ (b &&& 0x70#8 = 0x10#8 ↔ (decode b).kind = .and) ∧
    (b &&& 0x70#8 = 0x20#8 ↔ (decode b).kind = .shl) ∧ (b &&& 0x70#8 = 0x30#8 ↔ (decode b).kind = .disp) ∧
    (b &&& 0x70#8 = 0x40#8 ↔ (decode b).kind = .load) ∧ (b &&& 0x70#8 = 0x50#8 ↔ (decode b).kind = .str) ∧
    (b &&& 0x70#8 = 0x60#8 ↔ (decode b).kind = .jmp) ∧ (b &&& 0x70#8 = 0x70#8 ↔ (decode b).kind = .jz)) ∧
  ∀ n : Nibble,
    (encode (.add n)).toNat = 0x00 + n.toNat ∧ (encode (.and n)).toNat = 0x10 + n.toNat ∧
    (encode (.shl n)).toNat = 0x20 + n.toNat ∧ (encode (.disp n)).toNat = 0x30 + n.toNat ∧
    (encode (.load n)).toNat = 0x40 + n.toNat ∧ (encode (.str n)).toNat = 0x50 + n.toNat ∧
    (encode (.jmp n)).toNat = 0x60 + n.toNat ∧ (encode (.jz n)).toNat = 0x70 + n.toNat

/-- 95_test_vectors.md V1: one or two words of each kind, an alias among them. -/
def Obligations.WordsOfTheDecoderTable : Prop :=
  decode 0b00001111#8 = .add 15 ∧ decode 0b00011000#8 = .and 8 ∧ decode 0b00100011#8 = .shl 3 ∧
  decode 0b00111111#8 = .disp 15 ∧ decode 0b01001111#8 = .load 15 ∧ decode 0b01011111#8 = .str 15 ∧
  decode 0b01100100#8 = .jmp 4 ∧ decode 0b01111110#8 = .jz 14 ∧ decode 0b10000000#8 = .add 0 ∧
  decode 0b10100101#8 = .shl 5 ∧ decode 0b11010011#8 = .str 3 ∧ decode 0b11111111#8 = .jz 15

/-- 30_encoding.md R35: the operand is `b[3:0]` for all kinds, and its three uses: zero-extended immediate, cell index
as it stands, new pc as it stands. -/
def Obligations.OperandIsUnsignedNibble : Prop :=
  (∀ b : Byte, (decode b).operand.toNat = b.toNat % 16) ∧
  ∀ n : Nibble, (immediate n).toNat = n.toNat ∧ immediate n = 0#4 ++ n ∧ effectiveAddress n = n ∧ jumpTarget n = n

/-- 00_scope.md section 5: the unsigned reading of a byte is the sum of its bits, and the signed one subtracts 256 when
bit 7 is set, which is the two's-complement reading. -/
def Obligations.ByteReadings : Prop :=
  ∀ b : Byte,
    b.toNat = ((List.range 8).map fun i => if b.getLsbD i then 2 ^ i else 0).sum ∧
    sint b = (if b.getLsbD 7 then (b.toNat : Int) - 256 else b.toNat) ∧ sint b = b.toInt ∧
    -128 ≤ sint b ∧ sint b ≤ 127

/-- 30_encoding.md R40: the assembler's encoder on every kind and every integer operand. -/
def Obligations.AssemblerEncodesExactlyNibbles : Prop :=
  ∀ (k : Kind) (n : Int),
    (0 ≤ n ∧ n ≤ 15 →
      ∃ b, (AsmValue.value k n).encode = .ok b ∧ (b.toNat : Int) = n + 16 * k.index ∧ b.getLsbD 7 = false) ∧
    (n < 0 ∨ 15 < n → (AsmValue.value k n).encode = .error .operandOutOfRange)

/-- 30_encoding.md R41: the round trip over every encodable value and every instruction, totality, the other
composition, and that exactly the canonical byte and its alias decode to an instruction. -/
def Obligations.CodecLaws : Prop :=
  (∀ (v : AsmValue) (b : Byte), v.encode = .ok b → AsmValue.ofInstr (decode b) = .value v.kind v.operand) ∧
  (∀ i : Instr, (AsmValue.ofInstr i).encode = .ok (encode i) ∧ decode (encode i) = i) ∧
  (∀ b : Byte, encode (decode b) = b &&& 0x7F#8 ∧ (encode (decode b) = b ↔ b.getLsbD 7 = false)) ∧
  (∀ (i : Instr) (b : Byte), decode b = i ↔ b = encode i ∨ b = encode i ||| 0x80#8) ∧
  ∀ i : Instr, encode i ≠ encode i ||| 0x80#8

/-- 30_encoding.md section 1: a byte decodes alike with bit 7 clear and with bit 7 set. -/
def Obligations.AliasDecodesAsCanonical : Prop :=
  ∀ b : Byte, decode b = decode (b &&& 0x7F#8) ∧ decode b = decode (b ||| 0x80#8)

/-- 30_encoding.md R42: `Nop` assembles to `0x00`, which is `Add(0)`, and executing it changes nothing but the pc. -/
def Obligations.NopIsAddZero : Prop :=
  AsmValue.nop.encode = .ok 0x00#8 ∧ decode 0x00#8 = .add 0 ∧ encode (.add 0) = 0x00#8 ∧
  ∀ s : State, exec (decode 0x00#8) s = .next { s with pc := s.pc + 1 }

/-! ## Memory, reset and the host's load -/

/-- 20_memory.md R20: reading gives the byte last written to the cell; writing changes that cell and nothing else. -/
def Obligations.MemoryPrimitives : Prop :=
  ∀ (s : State) (a : Nibble) (v : Byte),
    (s.memWrite a v).memRead a = v ∧ (∀ b, b ≠ a → (s.memWrite a v).memRead b = s.memRead b) ∧
    (s.memWrite a v).register = s.register ∧ (s.memWrite a v).bcd = s.bcd ∧ (s.memWrite a v).pc = s.pc ∧
    (s.memWrite a v).runState = s.runState ∧ (s.memWrite a v).fault = s.fault

/-- 10_state.md R16, 70_reset_and_hazards.md R79: Reset, from any state, gives one fixed state, with every element at
its reset value; after the load the first fetch is from cell 0; and no other operation makes a Halted machine run. -/
def Obligations.ResetGivesEveryElementItsValue : Prop :=
  (∀ s : State,
    (∀ a, s.resetOp.memRead a = 0x00#8) ∧ s.resetOp.register = 0x00#8 ∧ s.resetOp.bcd = 0x00#8 ∧
    s.resetOp.pc = 0x0#4 ∧ s.resetOp.runState = .running ∧ s.resetOp.fault = none) ∧
  (∀ s s' : State, s.resetOp = s'.resetOp) ∧
  (∀ (s : State) (image : Image), (s.resetOp.loadImage image).fetchByte = image[0]) ∧
  (∀ c : Session, c.apply .reset = some ⟨c.machine.resetOp, .unloaded⟩) ∧
  ∀ (c d : Session) (op : HostOp),
    c.machine.runState = .halted → c.apply op = some d → d.machine.runState = .running → op = .reset

/-- 70_reset_and_hazards.md R80: `Load(IMAGE)` writes every cell and nothing else, it comes after Reset and
before any step, execution then starts at cell 0, and the image the Loader makes is the encoding of exactly 16 values. -/
def Obligations.LoadWritesTheWholeImage : Prop :=
  (∀ (s : State) (image : Image),
    (∀ i : Fin 16, (s.loadImage image).memRead (BitVec.ofFin i) = image[i]) ∧
    (s.loadImage image).register = s.register ∧ (s.loadImage image).bcd = s.bcd ∧
    (s.loadImage image).pc = s.pc ∧ (s.loadImage image).runState = s.runState ∧
    (s.loadImage image).fault = s.fault) ∧
  (∀ image : Image, (State.reset.loadImage image).register = 0x00#8 ∧ (State.reset.loadImage image).bcd = 0x00#8 ∧
    (State.reset.loadImage image).pc = 0x0#4 ∧
    step (State.reset.loadImage image) = exec (decode image[0]) (State.reset.loadImage image) ∧
    Session.start.apply .step = none ∧
    Session.start.apply (.load image) = some ⟨State.reset.loadImage image, .loaded⟩) ∧
  ∀ (p : List AsmValue) (image : Image), assembleImage p = .ok image →
    p.length = 16 ∧ ∀ (i : Fin 16) (v : AsmValue), p[i.val]? = some v → v.encode = .ok image[i]

/-- 70_reset_and_hazards.md R81: when the Loader fails and with which error, and that it succeeds on every other list.
Where a list has the wrong length and also an operand out of range, only that it fails (the model's choice of the
error there is log entry 8). -/
def Obligations.LoaderFailsInTwoCases : Prop :=
  ∀ (s : State) (p : List AsmValue),
    let inRange := ∀ v ∈ p, 0 ≤ v.operand ∧ v.operand ≤ 15
    (p.length ≠ 16 → inRange → s.loadProgram p = .error .programSizeMismatch) ∧
    (p.length = 16 → ¬ inRange → s.loadProgram p = .error .operandOutOfRange) ∧
    (p.length ≠ 16 → ¬ inRange → ∃ e, s.loadProgram p = .error e) ∧
    (p.length = 16 → inRange → ∃ image, assembleImage p = .ok image ∧ s.loadProgram p = .ok (s.loadImage image))

/-- 70_reset_and_hazards.md R82: the hardware's load takes any 16 bytes and the step is defined on them; the images the
Loader can make are exactly those that meet the launch premise `Image.ProducedByLoader`, which is bit 7 clear in every
cell, and which are those that survive decode and encode. -/
def Obligations.LoaderImagesHaveBitSevenClear : Prop :=
  (∀ (s : State) (image : Image), ∃ t, step (s.loadImage image) = .next t) ∧
  ∀ image : Image,
    ((∃ p, assembleImage p = .ok image) ↔ Image.ProducedByLoader image) ∧
    (Image.ProducedByLoader image ↔ ∀ i : Fin 16, image[i].getLsbD 7 = false) ∧
    (Image.ProducedByLoader image ↔ ∀ i : Fin 16, image[i] = encode (decode image[i]))

/-- 60_exceptions.md section 4 (the snapshot) and log entry 1 (the model's representation of memory, a DESIGN CHOICE):
on canonical memories the snapshot determines the state, so the representation holds nothing the host cannot see. -/
def Obligations.SnapshotDeterminesState : Prop :=
  ∀ s t : State, Memory.wf s.memory → Memory.wf t.memory → s.snapshot = t.snapshot → s = t

/-! ## The eight instructions -/

/-- 41_alu_add_and.md R54: Add(n), in the unsigned and in the signed reading, with its encoding and its frame. -/
def Obligations.AddWrapsAndAdvances : Prop :=
  (∀ b : Byte, b &&& 0x70#8 = 0x00#8 → decode b = .add (b.setWidth 4)) ∧
  ∀ (n : Nibble) (s : State), ∃ t, exec (.add n) s = .next t ∧
    t.register.toNat = (s.register.toNat + n.toNat) % 256 ∧
    sint t.register =
      (if sint s.register + n.toNat ≤ 127 then sint s.register + n.toNat else sint s.register + n.toNat - 256) ∧
    t.pc.toNat = (s.pc.toNat + 1) % 16 ∧
    t.bcd = s.bcd ∧ t.memory = s.memory ∧ (∀ a, t.memRead a = s.memRead a) ∧
    t.runState = s.runState ∧ t.fault = s.fault

/-- 41_alu_add_and.md R55: And(n): the low four bits are ANDed, the high four cleared, whatever they held. -/
def Obligations.AndMasksTheLowNibble : Prop :=
  (∀ b : Byte, b &&& 0x70#8 = 0x10#8 → decode b = .and (b.setWidth 4)) ∧
  ∀ (n : Nibble) (s : State), ∃ t, exec (.and n) s = .next t ∧
    (∀ i : Nat, i < 4 → t.register.getLsbD i = (s.register.getLsbD i && n.getLsbD i)) ∧
    (∀ i : Nat, 4 ≤ i → t.register.getLsbD i = false) ∧ 0 ≤ sint t.register ∧ sint t.register ≤ 15 ∧
    t.pc.toNat = (s.pc.toNat + 1) % 16 ∧
    t.bcd = s.bcd ∧ t.memory = s.memory ∧ (∀ a, t.memRead a = s.memRead a) ∧
    t.runState = s.runState ∧ t.fault = s.fault

/-- 42_shift_shl.md R57: Shl(n) doubles the addressed cell modulo 256; bit 7 is lost, bit 0 is 0; every other cell and
register is unchanged, and eight of them leave `0x00` in the cell. -/
def Obligations.ShlDoublesTheCell : Prop :=
  (∀ b : Byte, b &&& 0x70#8 = 0x20#8 → decode b = .shl (b.setWidth 4)) ∧
  (∀ (n : Nibble) (s : State), ∃ t, exec (.shl n) s = .next t ∧
    (t.memRead (effectiveAddress n)).toNat = 2 * (s.memRead n).toNat % 256 ∧
    (∀ i : Nat, i < 7 → (t.memRead (effectiveAddress n)).getLsbD (i + 1) = (s.memRead n).getLsbD i) ∧
    (t.memRead (effectiveAddress n)).getLsbD 0 = false ∧
    (∀ a, a ≠ effectiveAddress n → t.memRead a = s.memRead a) ∧
    t.pc.toNat = (s.pc.toNat + 1) % 16 ∧
    t.register = s.register ∧ t.bcd = s.bcd ∧ t.runState = s.runState ∧ t.fault = s.fault) ∧
  ∀ (n : Nibble) (at' : Nat → State), (∀ k, k < 8 → exec (.shl n) (at' k) = .next (at' (k + 1))) →
    (at' 8).memRead n = 0x00#8

/-- 43_memory_transfer.md R59: Disp(n) copies the addressed cell into `bcd`. -/
def Obligations.DispCopiesCellToLatch : Prop :=
  (∀ b : Byte, b &&& 0x70#8 = 0x30#8 → decode b = .disp (b.setWidth 4)) ∧
  ∀ (n : Nibble) (s : State), ∃ t, exec (.disp n) s = .next t ∧
    t.bcd = s.memRead (effectiveAddress n) ∧ t.pc.toNat = (s.pc.toNat + 1) % 16 ∧
    t.register = s.register ∧ t.memory = s.memory ∧ (∀ a, t.memRead a = s.memRead a) ∧
    t.runState = s.runState ∧ t.fault = s.fault

/-- 43_memory_transfer.md R60: Load(n) copies the addressed cell into `register`. -/
def Obligations.LoadCopiesCellToRegister : Prop :=
  (∀ b : Byte, b &&& 0x70#8 = 0x40#8 → decode b = .load (b.setWidth 4)) ∧
  ∀ (n : Nibble) (s : State), ∃ t, exec (.load n) s = .next t ∧
    t.register = s.memRead (effectiveAddress n) ∧ t.pc.toNat = (s.pc.toNat + 1) % 16 ∧
    t.bcd = s.bcd ∧ t.memory = s.memory ∧ (∀ a, t.memRead a = s.memRead a) ∧
    t.runState = s.runState ∧ t.fault = s.fault

/-- 43_memory_transfer.md R61: Str(n) copies `register` into the addressed cell; the other 15 cells are unchanged. -/
def Obligations.StrCopiesRegisterToCell : Prop :=
  (∀ b : Byte, b &&& 0x70#8 = 0x50#8 → decode b = .str (b.setWidth 4)) ∧
  ∀ (n : Nibble) (s : State), ∃ t, exec (.str n) s = .next t ∧
    t.memRead (effectiveAddress n) = s.register ∧ (∀ a, a ≠ effectiveAddress n → t.memRead a = s.memRead a) ∧
    t.pc.toNat = (s.pc.toNat + 1) % 16 ∧
    t.register = s.register ∧ t.bcd = s.bcd ∧ t.runState = s.runState ∧ t.fault = s.fault

/-- 44_jump.md R63: Jmp(n) sets the pc and nothing else, so the next step fetches cell `n`; a jump to itself leaves the
whole state as it was. -/
def Obligations.JmpSetsOnlyThePc : Prop :=
  (∀ b : Byte, b &&& 0x70#8 = 0x60#8 → decode b = .jmp (b.setWidth 4)) ∧
  ∀ (n : Nibble) (s : State), ∃ t, exec (.jmp n) s = .next t ∧
    t.pc = n ∧ t.fetchByte = s.memRead n ∧ (n = s.pc → t = s) ∧
    t.register = s.register ∧ t.bcd = s.bcd ∧ t.memory = s.memory ∧ (∀ a, t.memRead a = s.memRead a) ∧
    t.runState = s.runState ∧ t.fault = s.fault

/-- 44_jump.md R64: Jz(n) halts with the record of the pc and the byte as fetched, whatever `n` and `register` are, and
every later step changes nothing. The first clause is the execute phase, the second a step of a Running machine on any
Jz byte, canonical or alias. -/
def Obligations.JzHaltsWithTheRecord : Prop :=
  (∀ b : Byte, b &&& 0x70#8 = 0x70#8 → decode b = .jz (b.setWidth 4)) ∧
  (∀ (n : Nibble) (s : State), ∃ t, exec (.jz n) s = .next t ∧
    t.runState = .halted ∧ t.fault = some (.unimplementedOpcode s.pc (s.memRead s.pc)) ∧
    t.pc = s.pc ∧ t.register = s.register ∧ t.bcd = s.bcd ∧ t.memory = s.memory ∧
    (∀ a, t.memRead a = s.memRead a)) ∧
  ∀ (s : State) (b : Byte), s.runState = .running → s.memRead s.pc = b → b &&& 0x70#8 = 0x70#8 →
    ∃ t, step s = .next t ∧ t = { s with runState := .halted, fault := some (.unimplementedOpcode s.pc b) } ∧
      step t = .next t

/-- 10_state.md R15: for each kind, which elements change, on what the new value of each changed element depends, and
that a step while Halted changes nothing. `n` is the decoded operand. -/
def Obligations.ReadAndWriteMatrix : Prop :=
  (∀ (i : Instr) (s t : State), exec i s = .next t →
    (i.kind ∉ [Kind.add, .and, .load] → t.register = s.register) ∧ (i.kind ≠ .disp → t.bcd = s.bcd) ∧
    (i.kind ≠ .jz → t.runState = s.runState ∧ t.fault = s.fault) ∧ (i.kind = .jz → t.pc = s.pc) ∧
    (∀ a, (i.kind ∈ [Kind.shl, .str] → a ≠ effectiveAddress i.operand) → t.memRead a = s.memRead a)) ∧
  (∀ (i : Instr) (s₁ s₂ t₁ t₂ : State), exec i s₁ = .next t₁ → exec i s₂ = .next t₂ →
    (i.kind ∈ [Kind.add, .and] → s₁.register = s₂.register → t₁.register = t₂.register) ∧
    (i.kind = .load → s₁.memRead i.operand = s₂.memRead i.operand → t₁.register = t₂.register) ∧
    (i.kind = .disp → s₁.memRead i.operand = s₂.memRead i.operand → t₁.bcd = t₂.bcd) ∧
    (i.kind = .shl → s₁.memRead i.operand = s₂.memRead i.operand → t₁.memRead i.operand = t₂.memRead i.operand) ∧
    (i.kind = .str → s₁.register = s₂.register → t₁.memRead i.operand = t₂.memRead i.operand) ∧
    (i.kind = .jmp → t₁.pc = t₂.pc) ∧ (i.kind ≠ .jmp → s₁.pc = s₂.pc → t₁.pc = t₂.pc) ∧
    (i.kind = .jz → s₁.pc = s₂.pc → s₁.fetchByte = s₂.fetchByte →
      t₁.runState = t₂.runState ∧ t₁.fault = t₂.fault)) ∧
  ∀ s : State, s.runState = .halted → step s = .next s

/-- 42_shift_shl.md R58, the table: how one Shl turns the canonical byte of an instruction into another one. Bit 7 of
the new byte is the old top opcode bit, so the rows from Load on leave aliases. -/
def Obligations.ShlRewritesInstructions : Prop :=
  ∀ (i : Instr) (n : Nibble) (s : State), s.memRead n = encode i → ∃ t, exec (.shl n) s = .next t ∧
    (decode (t.memRead n)).operand.toNat = (2 * i.operand.toNat) % 16 ∧
    (decode (t.memRead n)).kind.index = (2 * i.kind.index + (if i.operand.toNat ≤ 7 then 0 else 1)) % 8 ∧
    ((t.memRead n).getLsbD 7 = true ↔ 4 ≤ i.kind.index)

/-! ## The step and the whole machine -/

/-- 40_engine_cycle.md R46: a step of a Running machine executes what the decoder gives for the byte at the pc, which
is always a well-formed instruction, from the state at the start of the step. The step adds nothing around it. -/
def Obligations.StepRunsTheDecodedInstruction : Prop :=
  ∀ s : State, s.runState = .running →
    (decode (s.memRead s.pc)).wellFormed = true ∧ step s = exec (decode (s.memRead s.pc)) s

/-- 40_engine_cycle.md R50: while Halted a step, and any number of steps, returns the state unchanged. -/
def Obligations.HaltedStepsChangeNothing : Prop :=
  ∀ s : State, s.runState = .halted → step s = .next s ∧ ∀ k, core.run k s = .next s

/-- 40_engine_cycle.md R44: every state has a successor, and its snapshot is the one the pseudocode of R44 computes
from the snapshot before. -/
def Obligations.StepIsThePseudocode : Prop :=
  ∀ s : State, ∃ t, step s = .next t ∧ t.snapshot = s.snapshot.pseudocodeStep

/-- 40_engine_cycle.md R47: the default advance, and the two kinds it does not apply to. -/
def Obligations.PcAdvanceByKind : Prop :=
  ∀ s : State, s.runState = .running → ∃ t, step s = .next t ∧
    t.pc.toNat =
      (match s.fetchInstr with
       | .jmp n => n.toNat
       | .jz _ => s.pc.toNat
       | _ => (s.pc.toNat + 1) % 16) ∧
    ∀ n, s.fetchInstr = .jz n → t.fault = some (.unimplementedOpcode s.pc s.fetchByte)

/-- 70_reset_and_hazards.md section 3: after an instruction at cell 15 that is neither Jmp nor Jz, execution goes on from
cell 0, still Running, with the fetch reading cell 0 as that instruction left it. -/
def Obligations.TopOfMemoryWrapsToCellZero : Prop :=
  ∀ s : State, s.runState = .running → s.pc = 15#4 → s.fetchInstr.kind ∉ [Kind.jmp, .jz] →
    ∃ t, step s = .next t ∧ t.pc = 0#4 ∧ t.runState = .running ∧ step t = exec (decode (t.memRead 0#4)) t

/-- 20_memory.md section 5: the store of a step is seen by the very next fetch, also when the written cell is the next
one to be fetched. -/
def Obligations.StoreSeenByTheNextFetch : Prop :=
  ∀ (s : State) (n : Nibble), s.runState = .running →
    (s.fetchInstr = .str n → ∃ t, step s = .next t ∧ t.memRead n = s.register ∧
      step t = exec (decode (t.memRead t.pc)) t ∧ (n = s.pc + 1 → step t = exec (decode s.register) t)) ∧
    (s.fetchInstr = .shl n → ∃ t, step s = .next t ∧ t.memRead n = s.memRead n <<< 1 ∧
      step t = exec (decode (t.memRead t.pc)) t ∧ (n = s.pc + 1 → step t = exec (decode (s.memRead n <<< 1)) t))

/-- 20_memory.md R29: an instruction that writes its own cell completes as fetched, once, and the pc moves on. -/
def Obligations.SelfRewriteCompletesAsFetched : Prop :=
  ∀ s : State, s.runState = .running →
    (s.fetchInstr = .str s.pc → ∃ t, step s = .next t ∧ t.memRead s.pc = s.register ∧ t.register = s.register ∧
      t.bcd = s.bcd ∧ t.pc.toNat = (s.pc.toNat + 1) % 16 ∧ (∀ a, a ≠ s.pc → t.memRead a = s.memRead a)) ∧
    (s.fetchInstr = .shl s.pc → ∃ t, step s = .next t ∧ t.memRead s.pc = s.fetchByte <<< 1 ∧
      t.register = s.register ∧ t.bcd = s.bcd ∧ t.pc.toNat = (s.pc.toNat + 1) % 16 ∧
      (∀ a, a ≠ s.pc → t.memRead a = s.memRead a))

/-- 60_exceptions.md R66: the one fault is raised by the Jz bytes and by nothing else: a step of a Running machine
halts exactly on them, and otherwise stays Running with no fault recorded. -/
def Obligations.OnlyJzBytesFault : Prop :=
  ∀ s : State, s.runState = .running → s.fault = none → ∃ t, step s = .next t ∧
    (t.runState = .halted ↔ s.memRead s.pc &&& 0x70#8 = 0x70#8) ∧
    (t.runState = .halted → t.fault = some (.unimplementedOpcode s.pc (s.memRead s.pc))) ∧
    (t.runState = .running → t.fault = none)

/-- 70_reset_and_hazards.md section 3: a jump to its own cell parks the machine: every number of steps leaves the state
as it is. -/
def Obligations.JumpToSelfParks : Prop :=
  ∀ s : State, s.fetchInstr = .jmp s.pc → ∀ k, core.run k s = .next s

/-- 10_state.md R9: only Disp writes `bcd`, with the addressed cell, and no step's effect on any other element depends on
`bcd`: from two states that differ only there, the next states differ at most there. -/
def Obligations.LatchIsWriteOnly : Prop :=
  ∀ (s : State) (v : Byte), ∃ t u, step s = .next t ∧ step (s.setBcd v) = .next u ∧ u.setBcd t.bcd = t ∧
    (∀ n, s.runState = .running → s.fetchInstr = .disp n → t.bcd = s.memRead n ∧ u.bcd = s.memRead n) ∧
    ((s.runState = .halted ∨ s.fetchInstr.kind ≠ .disp) → t.bcd = s.bcd ∧ u.bcd = v)

/-! ## Invariants -/

/-- The model's invariant holds at reset: canonical memory (log entry 1), and Running with no fault record
(10_state.md, rules on reset and on `fault`). -/
def Obligations.InvariantHoldsAtReset : Prop := State.reset.Inv

/-- Every step keeps the invariant, from every state that has it: canonical memory, and the fault record of a Halted
state is the pc and the byte of the Jz cell it is on. -/
def Obligations.StepKeepsTheInvariant : Prop :=
  ∀ s t : State, s.Inv → step s = .next t → t.Inv

/-- 10_state.md section 2 and 60_exceptions.md section 1 (the rules on the fault record), and for the first clause, the
canonical memory, log entry 1 (the model's representation, a DESIGN CHOICE, which no rule of the spec states): whatever
the host does within the lifecycle, memory is canonical, the fault record is none exactly
while Running, and in a Halted machine it is the pc and the byte of the cell at the pc, whose low bits name the operand;
only a Reset clears or overwrites it. -/
def Obligations.FaultRecordInEveryReachableState : Prop :=
  ∀ (ops : List HostOp) (c : Session), Session.start.applyAll ops = some c →
    Memory.wf c.machine.memory ∧
    (c.machine.fault = none ↔ c.machine.runState = .running) ∧
    (c.machine.runState = .halted →
      c.machine.fault = some (.unimplementedOpcode c.machine.pc (c.machine.memRead c.machine.pc)) ∧
      decode (c.machine.memRead c.machine.pc) = .jz ((c.machine.memRead c.machine.pc).setWidth 4)) ∧
    ∀ (op : HostOp) (d : Session), op ≠ .reset → c.machine.fault ≠ none → c.apply op = some d →
      d.machine.fault = c.machine.fault

/-- 60_exceptions.md R71: from a Halted machine that has been stepped, no sequence of host operations without a Reset
changes the machine, and a Reset gives the reset state, whatever came before. -/
def Obligations.OnlyResetLeavesHalted : Prop :=
  (∀ (ops : List HostOp) (c d : Session), c.machine.runState = .halted → c.phase = .stepping →
    HostOp.reset ∉ ops → c.applyAll ops = some d → d = c) ∧
  ∀ c : Session, c.apply .reset = some Session.start

/-! ## The host interface -/

/-- 00_scope.md section 3 and 10_state.md section 6: the engine is the only agent and its step is the machine's step; the
host has four operations; and a machine changes only by a Reset, by the one Load before the first step, or by a step of
the engine. -/
def Obligations.EngineIsTheOnlyMutator : Prop :=
  (∀ (a : Agent) (s : State), a = .engine ∧ a.step s = step s) ∧
  (∀ op : HostOp, op = .reset ∨ (∃ image, op = .load image) ∨ op = .step ∨ op = .snapshot) ∧
  ∀ (c d : Session) (op : HostOp), c.apply op = some d → d.machine ≠ c.machine →
    op = .reset ∨
    (∃ image, op = .load image ∧ c.phase = .unloaded ∧ d.machine = c.machine.loadImage image) ∨
    (op = .step ∧ c.phase ≠ .unloaded ∧ Agent.engine.step c.machine = .next d.machine)

/-- 40_engine_cycle.md R51: when each of the four operations is allowed and what it does, and what the snapshot returns;
where an operation is not allowed the session has no move. -/
def Obligations.HostOperationsTable : Prop :=
  (∀ c : Session, c.apply .reset = some ⟨State.reset, .unloaded⟩ ∧ c.apply .snapshot = some c) ∧
  (∀ (c : Session) (image : Image),
    c.apply (.load image) = if c.phase = .unloaded then some ⟨c.machine.loadImage image, .loaded⟩ else none) ∧
  (∀ c : Session,
    (c.phase = .unloaded → c.apply .step = none) ∧
    (c.phase ≠ .unloaded → ∃ t, step c.machine = .next t ∧ c.apply .step = some ⟨t, .stepping⟩)) ∧
  (∀ (s : State) (image : Image) (i : Fin 16), (s.loadImage image).memRead (BitVec.ofFin i) = image[i]) ∧
  ∀ s : State, (∀ i : Fin 16, s.snapshot.memory[i] = s.memRead (BitVec.ofFin i)) ∧
    s.snapshot.register = s.register ∧ s.snapshot.bcd = s.bcd ∧ s.snapshot.pc = s.pc ∧
    s.snapshot.runState = s.runState ∧ s.snapshot.fault = s.fault

/-- 40_engine_cycle.md R52: a run of a loaded image ends with the state its count of steps gives; at the step limit with
that signal, or Halted with the other, and not before either. -/
def Obligations.RunEndsAtLimitOrFault : Prop :=
  ∀ (image : Image) (maxSteps : Nat), ∃ r, runImage image maxSteps = .next r ∧
    core.run r.stepsTaken (State.reset.loadImage image) = .next r.state ∧ r.stepsTaken ≤ maxSteps ∧
    (r.signal = .stepLimitReached → r.stepsTaken = maxSteps) ∧
    (r.signal = .unimplementedOpcode → r.state.runState = .halted) ∧
    ∀ k t, k < r.stepsTaken → core.run k (State.reset.loadImage image) = .next t → t.runState = .running
end

