-- ==== Sys2Proof/Laws/Agent.lean ====
section
/-! SUPPORT. The one agent's step is the machine's step. -/

namespace Sys2Proof.Machine

@[simp] theorem Agent.engine_step (s : State) : Agent.engine.step s = Sys2Proof.Machine.step s := rfl

/-- There is no other agent. -/
theorem Agent.eq_engine (a : Agent) : a = .engine := by cases a; rfl

end Sys2Proof.Machine
end

