-- ==== Sys2Proof/Laws/State.lean ====
section
/-! SUPPORT. What each update of the state leaves in each element: one lemma per element and update. -/

namespace Sys2Proof.Machine

variable (s : State)

@[simp] theorem setRegister_register (v : Byte) : (s.setRegister v).register = v := rfl
@[simp] theorem setRegister_bcd (v : Byte) : (s.setRegister v).bcd = s.bcd := rfl
@[simp] theorem setRegister_pc (v : Byte) : (s.setRegister v).pc = s.pc := rfl
@[simp] theorem setRegister_memory (v : Byte) : (s.setRegister v).memory = s.memory := rfl
@[simp] theorem setRegister_runState (v : Byte) : (s.setRegister v).runState = s.runState := rfl
@[simp] theorem setRegister_fault (v : Byte) : (s.setRegister v).fault = s.fault := rfl
@[simp] theorem setRegister_memRead (v : Byte) (a : Nibble) : (s.setRegister v).memRead a = s.memRead a := rfl

@[simp] theorem setBcd_register (v : Byte) : (s.setBcd v).register = s.register := rfl
@[simp] theorem setBcd_bcd (v : Byte) : (s.setBcd v).bcd = v := rfl
@[simp] theorem setBcd_pc (v : Byte) : (s.setBcd v).pc = s.pc := rfl
@[simp] theorem setBcd_memory (v : Byte) : (s.setBcd v).memory = s.memory := rfl
@[simp] theorem setBcd_runState (v : Byte) : (s.setBcd v).runState = s.runState := rfl
@[simp] theorem setBcd_fault (v : Byte) : (s.setBcd v).fault = s.fault := rfl
@[simp] theorem setBcd_memRead (v : Byte) (a : Nibble) : (s.setBcd v).memRead a = s.memRead a := rfl

@[simp] theorem setPc_register (t : Nibble) : (s.setPc t).register = s.register := rfl
@[simp] theorem setPc_bcd (t : Nibble) : (s.setPc t).bcd = s.bcd := rfl
@[simp] theorem setPc_pc (t : Nibble) : (s.setPc t).pc = t := rfl
@[simp] theorem setPc_memory (t : Nibble) : (s.setPc t).memory = s.memory := rfl
@[simp] theorem setPc_runState (t : Nibble) : (s.setPc t).runState = s.runState := rfl
@[simp] theorem setPc_fault (t : Nibble) : (s.setPc t).fault = s.fault := rfl
@[simp] theorem setPc_memRead (t a : Nibble) : (s.setPc t).memRead a = s.memRead a := rfl

@[simp] theorem advance_register : s.advance.register = s.register := rfl
@[simp] theorem advance_bcd : s.advance.bcd = s.bcd := rfl
@[simp] theorem advance_pc : s.advance.pc = nextPc s.pc := rfl
@[simp] theorem advance_memory : s.advance.memory = s.memory := rfl
@[simp] theorem advance_runState : s.advance.runState = s.runState := rfl
@[simp] theorem advance_fault : s.advance.fault = s.fault := rfl
@[simp] theorem advance_memRead (a : Nibble) : s.advance.memRead a = s.memRead a := rfl

@[simp] theorem memWrite_register (a : Nibble) (v : Byte) : (s.memWrite a v).register = s.register := rfl
@[simp] theorem memWrite_bcd (a : Nibble) (v : Byte) : (s.memWrite a v).bcd = s.bcd := rfl
@[simp] theorem memWrite_pc (a : Nibble) (v : Byte) : (s.memWrite a v).pc = s.pc := rfl
@[simp] theorem memWrite_memory (a : Nibble) (v : Byte) :
    (s.memWrite a v).memory = Memory.write s.memory a.toNat v := rfl
@[simp] theorem memWrite_runState (a : Nibble) (v : Byte) : (s.memWrite a v).runState = s.runState := rfl
@[simp] theorem memWrite_fault (a : Nibble) (v : Byte) : (s.memWrite a v).fault = s.fault := rfl

@[simp] theorem raise_register (p : Nibble) (b : Byte) : (s.raiseUnimplementedOpcode p b).register = s.register := rfl
@[simp] theorem raise_bcd (p : Nibble) (b : Byte) : (s.raiseUnimplementedOpcode p b).bcd = s.bcd := rfl
@[simp] theorem raise_pc (p : Nibble) (b : Byte) : (s.raiseUnimplementedOpcode p b).pc = s.pc := rfl
@[simp] theorem raise_memory (p : Nibble) (b : Byte) : (s.raiseUnimplementedOpcode p b).memory = s.memory := rfl
@[simp] theorem raise_runState (p : Nibble) (b : Byte) : (s.raiseUnimplementedOpcode p b).runState = .halted := rfl
@[simp] theorem raise_fault (p : Nibble) (b : Byte) :
    (s.raiseUnimplementedOpcode p b).fault = some (.unimplementedOpcode p b) := rfl
@[simp] theorem raise_memRead (p : Nibble) (b : Byte) (a : Nibble) :
    (s.raiseUnimplementedOpcode p b).memRead a = s.memRead a := rfl

@[simp] theorem loadImage_register (image : Image) : (s.loadImage image).register = s.register := rfl
@[simp] theorem loadImage_bcd (image : Image) : (s.loadImage image).bcd = s.bcd := rfl
@[simp] theorem loadImage_pc (image : Image) : (s.loadImage image).pc = s.pc := rfl
@[simp] theorem loadImage_memory (image : Image) :
    (s.loadImage image).memory = Memory.storeFrom s.memory 0 image.toList := rfl
@[simp] theorem loadImage_runState (image : Image) : (s.loadImage image).runState = s.runState := rfl
@[simp] theorem loadImage_fault (image : Image) : (s.loadImage image).fault = s.fault := rfl

end Sys2Proof.Machine
end

