-- ==== Sys2Proof/Laws/Memory.lean ====
section
/-! SUPPORT. The memory operations: what a read gives after each of them, and that each keeps the canonical form. -/

namespace Sys2Proof.Machine

theorem Memory.read_erase (m : Memory) (a b : Nat) :
    Memory.read (Memory.erase m a) b = if b = a then Config.resetByte else Memory.read m b := by
  induction m with
  | nil => simp [Memory.erase, Memory.read]
  | cons c rest ih =>
    unfold Memory.erase at ih ⊢
    by_cases hc : c.1 = a
    · simp only [hc, ne_eq, not_true_eq_false, decide_false, Bool.false_eq_true, not_false_eq_true, List.filter_cons_of_neg, ih]
      by_cases hb : b = a
      · simp [hb]
      · simp [hb, Memory.read, hc, Ne.symm hb]
    · simp only [ne_eq, hc, not_false_eq_true, decide_true, List.filter_cons_of_pos, Memory.read, ih]
      by_cases hb : b = a
      · simp [hb, hc]
      · simp [hb]

theorem Memory.read_insertCell (m : Memory) (a b : Nat) (v : Byte) (h : ∀ c ∈ m, c.1 ≠ a) :
    Memory.read (Memory.insertCell m (a, v)) b = if b = a then v else Memory.read m b := by
  induction m with
  | nil => simp [Memory.insertCell, Memory.read, eq_comm]
  | cons d rest ih =>
    have hd : d.1 ≠ a := h d (by simp)
    have ih := ih fun c hc => h c (by simp [hc])
    unfold Memory.insertCell
    split
    · simp [Memory.read, eq_comm]
    · simp only [Memory.read, ih]
      by_cases hb : b = a
      · simp [hb, hd]
      · simp [hb]

theorem Memory.erase_ne (m : Memory) (a : Nat) : ∀ c ∈ Memory.erase m a, c.1 ≠ a := by
  simp [Memory.erase]

/-- A read after a write gives the byte written at its address and the old byte elsewhere. -/
theorem Memory.read_write (m : Memory) (a b : Nat) (v : Byte) :
    Memory.read (Memory.write m a v) b = if b = a then v else Memory.read m b := by
  unfold Memory.write
  split
  · next h => rw [Memory.read_erase, h]
  · rw [Memory.read_insertCell _ _ _ _ (Memory.erase_ne m a), Memory.read_erase]
    split <;> rfl

theorem Memory.mem_insertCell (m : Memory) (c d : Host.Cell) :
    d ∈ Memory.insertCell m c ↔ d = c ∨ d ∈ m := by
  induction m with
  | nil => simp [Memory.insertCell]
  | cons e rest ih =>
    unfold Memory.insertCell
    split
    · simp
    · simp [ih, or_left_comm]

theorem Memory.wf_erase {m : Memory} (h : Memory.wf m) (a : Nat) : Memory.wf (Memory.erase m a) :=
  ⟨h.1.filter _, fun c hc => h.2 c (List.mem_filter.mp hc).1⟩

theorem Memory.wf_insertCell {m : Memory} (h : Memory.wf m) {c : Host.Cell} (hne : ∀ d ∈ m, d.1 ≠ c.1)
    (ha : c.1 < Config.memCells) (hv : c.2 ≠ Config.resetByte) : Memory.wf (Memory.insertCell m c) := by
  refine ⟨?_, fun d hd => ?_⟩
  · have hp := h.1
    clear h
    induction m with
    | nil => simp [Memory.insertCell]
    | cons e rest ih =>
      have he := List.pairwise_cons.mp hp
      unfold Memory.insertCell
      split
      · next hlt =>
        refine List.pairwise_cons.mpr ⟨fun d hd => ?_, hp⟩
        rcases List.mem_cons.mp hd with rfl | hd
        · exact hlt
        · exact hlt.trans (he.1 d hd)
      · next hge =>
        refine List.pairwise_cons.mpr ⟨fun d hd => ?_, ih (fun d hd => hne d (by simp [hd])) he.2⟩
        rcases (Memory.mem_insertCell _ _ _).mp hd with rfl | hd
        · have := hne e (by simp)
          omega
        · exact he.1 d hd
  · rcases (Memory.mem_insertCell _ _ _).mp hd with rfl | hd
    · exact ⟨ha, hv⟩
    · exact h.2 d hd

/-- A write to a cell of the machine keeps the canonical form. -/
theorem Memory.wf_write {m : Memory} (h : Memory.wf m) {a : Nat} (ha : a < Config.memCells) (v : Byte) :
    Memory.wf (Memory.write m a v) := by
  unfold Memory.write
  split
  · exact Memory.wf_erase h a
  · next hv => exact Memory.wf_insertCell (Memory.wf_erase h a) (Memory.erase_ne m a) ha hv

/-- A read after storing a list of bytes upward from an address. -/
theorem Memory.read_storeFrom (m : Memory) (a b : Nat) (bs : List Byte) :
    Memory.read (Memory.storeFrom m a bs) b =
      if a ≤ b then (bs[b - a]?).getD (Memory.read m b) else Memory.read m b := by
  induction bs generalizing m a with
  | nil => simp [Memory.storeFrom]
  | cons v vs ih =>
    rw [Memory.storeFrom, ih, Memory.read_write]
    rcases Nat.lt_trichotomy a b with h | rfl | h
    · have e : b - a = (b - (a + 1)) + 1 := by omega
      rw [if_pos (by omega), if_neg (by omega), if_pos (by omega), e, List.getElem?_cons_succ]
    · simp
    · rw [if_neg (by omega), if_neg (by omega), if_neg (by omega)]

/-- Storing bytes into cells of the machine keeps the canonical form. -/
theorem Memory.wf_storeFrom {m : Memory} (h : Memory.wf m) (a : Nat) (bs : List Byte)
    (hlen : a + bs.length ≤ Config.memCells) : Memory.wf (Memory.storeFrom m a bs) := by
  induction bs generalizing m a with
  | nil => exact h
  | cons v vs ih =>
    simp only [List.length_cons] at hlen
    exact ih (Memory.wf_write h (by omega) v) _ (by omega)

/-- An address of the machine is one of its 16 cells (20_memory.md R19). -/
theorem nibble_lt_memCells (a : Nibble) : a.toNat < Config.memCells := a.isLt

@[simp] theorem memRead_memWrite (s : State) (a b : Nibble) (v : Byte) :
    (s.memWrite a v).memRead b = if b = a then v else s.memRead b := by
  simp [State.memRead, Memory.read_write, BitVec.toNat_inj]

theorem wf_memWrite {s : State} (h : Memory.wf s.memory) (a : Nibble) (v : Byte) :
    Memory.wf (s.memWrite a v).memory := Memory.wf_write h (nibble_lt_memCells a) v

theorem wf_loadImage {s : State} (h : Memory.wf s.memory) (image : Image) :
    Memory.wf (s.loadImage image).memory :=
  Memory.wf_storeFrom h 0 _ (by simp [Config.memCells])

/-- The memory after reset lists nothing and is in canonical form. -/
theorem wf_reset : Memory.wf State.reset.memory := by decide

end Sys2Proof.Machine
end

