-- ==== Sys2Proof/Laws/Exec.lean ====
section
/-! SUPPORT. The execute phase: the next state of each kind, and the one inversion lemma over all of them. -/

namespace Sys2Proof.Machine

variable (n : Nibble) (s : State)

/-- A memory operand is its own address (43_memory_transfer.md R62). -/
@[simp] theorem effectiveAddress_eq : effectiveAddress n = n := rfl

/-- A jump's target is its operand (44_jump.md R63). -/
@[simp] theorem jumpTarget_eq : jumpTarget n = n := rfl

/-- A byte can be read as the fetch of the cell at the pc. -/
theorem fetchByte_eq : s.fetchByte = s.memRead s.pc := rfl

@[simp] theorem exec_add : exec (.add n) s = .next (s.setRegister (aluAdd s.register (immediate n))).advance := rfl
@[simp] theorem exec_and : exec (.and n) s = .next (s.setRegister (aluAnd s.register (immediate n))).advance := rfl
@[simp] theorem exec_shl : exec (.shl n) s = .next (s.memWrite n (aluShl (s.memRead n))).advance := rfl
@[simp] theorem exec_disp : exec (.disp n) s = .next (s.setBcd (s.memRead n)).advance := rfl
@[simp] theorem exec_load : exec (.load n) s = .next (s.setRegister (s.memRead n)).advance := rfl
@[simp] theorem exec_str : exec (.str n) s = .next (s.memWrite n s.register).advance := rfl
@[simp] theorem exec_jmp : exec (.jmp n) s = .next (s.setPc n) := rfl
@[simp] theorem exec_jz : exec (.jz n) s = .next (s.raiseUnimplementedOpcode s.pc (s.memRead s.pc)) := rfl

/-- Everything the execute phase can leave: the default advance after one write, a jump, or the fault. -/
theorem exec_cases (i : Instr) (s : State) :
    (∃ v, exec i s = .next (s.setRegister v).advance) ∨ (∃ v, exec i s = .next (s.setBcd v).advance) ∨
    (∃ v, exec i s = .next (s.memWrite i.operand v).advance) ∨ exec i s = .next (s.setPc i.operand) ∨
    (i.kind = .jz ∧ exec i s = .next (s.raiseUnimplementedOpcode s.pc (s.memRead s.pc))) := by
  cases i with
  | add n => exact .inl ⟨_, exec_add n s⟩
  | and n => exact .inl ⟨_, exec_and n s⟩
  | shl n => exact .inr (.inr (.inl ⟨_, exec_shl n s⟩))
  | disp n => exact .inr (.inl ⟨_, exec_disp n s⟩)
  | load n => exact .inl ⟨_, exec_load n s⟩
  | str n => exact .inr (.inr (.inl ⟨_, exec_str n s⟩))
  | jmp n => exact .inr (.inr (.inr (.inl (exec_jmp n s))))
  | jz n => exact .inr (.inr (.inr (.inr ⟨rfl, exec_jz n s⟩)))

/-- The execute phase keeps the canonical form of the memory. -/
theorem wf_of_exec {i : Instr} {s t : State} (h : Memory.wf s.memory) (he : exec i s = .next t) :
    Memory.wf t.memory := by
  rcases exec_cases i s with ⟨v, e⟩ | ⟨v, e⟩ | ⟨v, e⟩ | e | ⟨-, e⟩ <;> rw [e] at he <;> cases he
  · exact h
  · exact h
  · exact wf_memWrite h _ v
  · exact h
  · exact h

end Sys2Proof.Machine
end

