-- ==== Sys2Proof/Laws/PerInstr.lean ====
section
/-! SUPPORT. Per-instruction facts about the syntax: the canonical byte of each instruction value. -/

namespace Sys2Proof.Laws.CanonicalByte

/-- The instruction value is well formed, the assembler encodes it to its canonical byte, and that byte is
`16 * opcode + n` (30_encoding.md R34, R40). -/
def Statement (i : Instr) : Prop :=
  i.wellFormed = true ∧ (encode i).toNat = 16 * i.kind.index + i.operand.toNat ∧
    (AsmValue.ofInstr i).encode.toOption = some (encode i)

theorem add (n : Nibble) : Statement (.add n) := by unfold Statement; revert n; decide
theorem and (n : Nibble) : Statement (.and n) := by unfold Statement; revert n; decide
theorem shl (n : Nibble) : Statement (.shl n) := by unfold Statement; revert n; decide
theorem disp (n : Nibble) : Statement (.disp n) := by unfold Statement; revert n; decide
theorem load (n : Nibble) : Statement (.load n) := by unfold Statement; revert n; decide
theorem str (n : Nibble) : Statement (.str n) := by unfold Statement; revert n; decide
theorem jmp (n : Nibble) : Statement (.jmp n) := by unfold Statement; revert n; decide
theorem jz (n : Nibble) : Statement (.jz n) := by unfold Statement; revert n; decide

end Sys2Proof.Laws.CanonicalByte
end

