-- ==== Sys2Proof/Tests/Slice0.lean ====
section
/-! SUPPORT. The model's own tests: expected results from spec/95_test_vectors.md or worked out from the rule named, and
for each obligation with hypotheses a theorem that shows states and operands meeting them. -/

open Sys2Proof Sys2Proof.Machine

namespace Sys2Proof.Tests

/-- The reset state with some cells written, a pc, a register and a latch. -/
def machineWith (cells : List (Nibble × Byte)) (pc : Nibble) (register bcd : Byte) : State :=
  { cells.foldl (fun s c => s.memWrite c.1 c.2) State.reset with pc := pc, register := register, bcd := bcd }

/-- The next state of an outcome, if it is one. -/
def after (o : Host.Outcome State Fault Refusal) : Option State :=
  match o with
  | .next t => some t
  | .fault _ => none
  | .refused _ => none

/-- The error of a Loader result, if it failed. -/
def errorOf {α : Type} (r : Except AsmError α) : Option AsmError :=
  match r with
  | .ok _ => none
  | .error e => some e

/-! ## Decoding (V1: each word is written bit by bit from `xooonnnn`) -/

theorem test_decode_add : decode 0b0_000_1111#8 = .add 15 := by decide
theorem test_decode_and : decode 0b0_001_1000#8 = .and 8 := by decide
theorem test_decode_shl : decode 0b0_010_0011#8 = .shl 3 := by decide
theorem test_decode_disp : decode 0b0_011_0000#8 = .disp 0 := by decide
theorem test_decode_load : decode 0b0_100_1111#8 = .load 15 := by decide
theorem test_decode_str : decode 0b0_101_1111#8 = .str 15 := by decide
theorem test_decode_jmp : decode 0b0_110_0100#8 = .jmp 4 := by decide
theorem test_decode_jz : decode 0b0_111_1110#8 = .jz 14 := by decide
/-- V1: `0x80` is `Add(0)` and `0xFF` is `Jz(15)`, the mask being neither an absolute value nor a division. -/
theorem test_decode_negative_bytes : decode 0x80#8 = .add 0 ∧ decode 0xFF#8 = .jz 15 := by decide
/-- V1, aliases of Shl, Disp, Load, Str and Jmp. -/
theorem test_decode_aliases : decode 0xA5#8 = .shl 5 ∧ decode 0xB0#8 = .disp 0 ∧ decode 0xC0#8 = .load 0 ∧
    decode 0xD3#8 = .str 3 ∧ decode 0xEF#8 = .jmp 15 := by decide
/-- The host's table words: `x110nnnn` with n = 0 is a Jmp. -/
theorem test_decode_table_word : decodeTableWord 8 0x60 = some (.jmp 0) := by decide

/-! ## Encoding, well-formedness, the Loader (V2) -/

theorem test_encode_words : encode (.add 15) = 0x0F#8 ∧ encode (.shl 3) = 0x23#8 ∧ encode (.str 14) = 0x5E#8 ∧
    encode (.jz 15) = 0x7F#8 := by decide
theorem test_encode_nop : AsmValue.nop.encode.toOption = some 0x00#8 := by decide
/-- V2: `Add(16)` and `Add(-1)` do not fit the 4-bit field. -/
theorem test_wellFormed_refuses_operands : (AsmValue.value .add 16).wellFormed = false ∧
    (AsmValue.value .add (-1)).wellFormed = false ∧ (AsmValue.value .add 15).wellFormed = true := by decide
theorem test_encode_refuses_operands : errorOf (AsmValue.value .add 16).encode = some .operandOutOfRange ∧
    errorOf (AsmValue.value .jmp (-1)).encode = some .operandOutOfRange ∧
    errorOf (AsmValue.value .load 255).encode = some .operandOutOfRange := by decide
/-- R81: 15 values, 17 values, and 16 values one of which is out of range, are not programs. -/
theorem test_programWellFormed_refuses : programWellFormed (List.replicate 15 .nop) = false ∧
    programWellFormed (List.replicate 17 .nop) = false ∧
    programWellFormed (.value .add 16 :: List.replicate 15 .nop) = false ∧
    programWellFormed (List.replicate 16 .nop) = true := by decide
/-- R39: the notation. -/
theorem test_render : (AsmValue.value .add 15).render = "Add(15)" ∧ AsmValue.nop.render = "Nop" := by decide

/-- The source's scenario, X1. -/
def scenario : List AsmValue := [.value .add 15, .value .disp 0, .value .jmp 0] ++ List.replicate 13 .nop
/-- X1's image. -/
def scenarioImage : Image := #v[0x0F, 0x30, 0x60, 0, 0, 0, 0, 0, 0, 0, 0, 0, 0, 0, 0, 0]
theorem test_loader_scenario : (assembleImage scenario).toOption = some scenarioImage := by decide
theorem test_loader_errors :
    errorOf (State.reset.loadProgram (List.replicate 15 .nop)) = some .programSizeMismatch ∧
    errorOf (State.reset.loadProgram (.value .add 16 :: List.replicate 15 .nop)) = some .operandOutOfRange := by decide

/-! ## One step of each kind (V3 to V8) -/

/-- V3: 127 + 1 is -128. -/
theorem test_add_wraps : (after (step (machineWith [(0, 0x01)] 0 0x7F 0))).map (fun t => (t.register, t.pc)) =
    some (0x80#8, 1#4) := by decide
/-- V3: the alias `0x83` runs as Add(3). -/
theorem test_add_alias : (after (step (machineWith [(0, 0x83)] 0 0x05 0))).map (·.register) = some 0x08#8 := by decide
/-- V4: And(15) clears the high nibble. -/
theorem test_and_clears_high : (after (step (machineWith [(0, 0x1F)] 0 0xAB 0))).map (·.register) =
    some 0x0B#8 := by decide
/-- V5: bit 7 is lost. -/
theorem test_shl_drops_sign : (after (step (machineWith [(2, 0x2E), (14, 0x81)] 2 0x11 0))).map
    (fun t => (t.memRead 14, t.register)) = some (0x02#8, 0x11#8) := by decide
/-- V5: Shl(1) at cell 1 shifts itself to `0x42`. -/
theorem test_shl_own_cell : (after (step (machineWith [(1, 0x21)] 1 0 0))).map (fun t => (t.memRead 1, t.pc)) =
    some (0x42#8, 2#4) := by decide
/-- V6.7: at cell 15 the pc wraps. -/
theorem test_disp_wraps_pc : (after (step (machineWith [(15, 0x39), (9, 0xD3)] 15 0 0x01))).map
    (fun t => (t.bcd, t.pc)) = some (0xD3#8, 0#4) := by decide
/-- V6.3. -/
theorem test_load : (after (step (machineWith [(0, 0x4F), (15, 0x80)] 0 0x11 0))).map (·.register) =
    some 0x80#8 := by decide
/-- V6.5: the instruction overwrites itself and still completes. -/
theorem test_str_own_cell : (after (step (machineWith [(5, 0x55)] 5 0xFF 0))).map
    (fun t => (t.memRead 5, t.pc, t.register)) = some (0xFF#8, 6#4, 0xFF#8) := by decide
/-- R61 with `register = 0x00`: the stored byte is what an unlisted cell reads as, so the cell is unlisted (log entry 1). -/
theorem test_str_zero_is_canonical : (after (step (machineWith [(2, 0x53), (3, 0x64)] 2 0x00 0))).map (·.memory) =
    some [(2, 0x53#8)] := by decide
/-- V7.4: no default advance after a jump. -/
theorem test_jmp : (after (step (machineWith [(3, 0x6F)] 3 0 0))).map (·.pc) = some 15#4 := by decide
/-- V7.7: a zero accumulator does not make Jz jump. -/
theorem test_jz_halts : (after (step (machineWith [(1, 0x70)] 1 0x00 0))).map (fun t => (t.runState, t.fault, t.pc)) =
    some (.halted, some (.unimplementedOpcode 1 0x70), 1#4) := by decide
/-- V7.8: the record keeps bit 7. -/
theorem test_jz_alias_record : (after (step (machineWith [(3, 0xFF)] 3 7 7))).map (·.fault) =
    some (some (.unimplementedOpcode 3 0xFF)) := by decide
/-- V9: a step on the reset state fetches Add(0). -/
theorem test_step_from_reset : after (step State.reset) = some { State.reset with pc := 1 } := by decide
/-- The host's probe: the table word placed is the instruction the next step runs, also from a Halted state. -/
theorem test_withFetchWord : (after (step (State.reset.withFetchWord 8 0x6A))).map (·.pc) = some 10#4 ∧
    (State.reset.withFetchWord 8 0x6A).fetchInstr = .jmp 10 := by decide

/-! ## Witnesses: states and operands that meet the hypotheses of the obligations -/

/-- A Halted machine: V7.6 after its step. -/
def haltedMachine : State :=
  { machineWith [(1, 0x70)] 1 0x01 0 with runState := .halted, fault := some (.unimplementedOpcode 1 0x70) }

/-- The session of a host that loaded an image with a Jz in cell 0 and stepped. -/
def haltedSession : Session := ⟨haltedMachine, .stepping⟩

/-- P5's fault, reached at once: a Jz in cell 0. -/
def jzImage : Image := #v[0x70, 0, 0, 0, 0, 0, 0, 0, 0, 0, 0, 0, 0, 0, 0, 0]

theorem witness_haltedMachine : haltedMachine.runState = .halted ∧ Memory.wf haltedMachine.memory ∧
    (decode (haltedMachine.memRead haltedMachine.pc)).kind = .jz := by decide

theorem witness_AssemblerEncodesExactlyNibbles : ((0 : Int) ≤ 0 ∧ (0 : Int) ≤ 15) ∧ ((0 : Int) ≤ 15 ∧ (15 : Int) ≤ 15) ∧
    (-1 : Int) < 0 ∧ (15 : Int) < 16 := by decide

theorem witness_CodecLaws : (AsmValue.value .jz 15).encode.toOption = some 0x7F#8 ∧
    AsmValue.nop.encode.toOption = some 0x00#8 := by decide

theorem witness_ResetGivesEveryElementItsValue : haltedSession.machine.runState = .halted ∧
    haltedSession.apply .reset = some Session.start ∧ Session.start.machine.runState = .running := by decide

theorem witness_LoadWritesTheWholeImage : (assembleImage scenario).toOption = some scenarioImage ∧
    scenario[(0 : Fin 16).val]? = some (.value .add 15) ∧ scenario[(15 : Fin 16).val]? = some .nop := by decide

/-- The four clauses: a short list in range, 16 values one out of range, a long list out of range, a program. -/
theorem witness_LoaderFailsInTwoCases :
    ((List.replicate 15 AsmValue.nop).length ≠ 16 ∧ ∀ v ∈ List.replicate 15 AsmValue.nop, 0 ≤ v.operand ∧ v.operand ≤ 15) ∧
    ((AsmValue.value .add 16 :: List.replicate 15 .nop).length = 16 ∧
      ¬ ∀ v ∈ AsmValue.value .add 16 :: List.replicate 15 .nop, 0 ≤ v.operand ∧ v.operand ≤ 15) ∧
    ((AsmValue.value .add (-1) :: List.replicate 16 .nop).length ≠ 16 ∧
      ¬ ∀ v ∈ AsmValue.value .add (-1) :: List.replicate 16 .nop, 0 ≤ v.operand ∧ v.operand ≤ 15) ∧
    (scenario.length = 16 ∧ ∀ v ∈ scenario, 0 ≤ v.operand ∧ v.operand ≤ 15) := by decide

theorem witness_LoaderImagesHaveBitSevenClear : (assembleImage scenario).toOption = some scenarioImage ∧
    Image.ProducedByLoader scenarioImage ∧ ¬ Image.ProducedByLoader (scenarioImage.set 15 0x80) := by
  decide

theorem witness_SnapshotDeterminesState : Memory.wf haltedMachine.memory ∧
    haltedMachine.snapshot = haltedMachine.snapshot := by decide

/-- Eight Shl(0) from reset: each only advances the pc. -/
theorem witness_ShlDoublesTheCell : ∀ k : Fin 8,
    after (exec (.shl 0) { State.reset with pc := BitVec.ofNat 4 k }) =
      some { State.reset with pc := BitVec.ofNat 4 (k + 1) } := by decide

/-- A byte of every kind, canonical and alias, for the encoding clauses of the eight instruction statements. -/
theorem witness_opcode_bytes : 0x0F#8 &&& 0x70#8 = 0x00#8 ∧ 0x8F#8 &&& 0x70#8 = 0x00#8 ∧ 0x1F#8 &&& 0x70#8 = 0x10#8 ∧
    0x2F#8 &&& 0x70#8 = 0x20#8 ∧ 0x3F#8 &&& 0x70#8 = 0x30#8 ∧ 0x4F#8 &&& 0x70#8 = 0x40#8 ∧
    0x5F#8 &&& 0x70#8 = 0x50#8 ∧ 0x6F#8 &&& 0x70#8 = 0x60#8 ∧ 0x7F#8 &&& 0x70#8 = 0x70#8 := by decide

/-- Bit positions and other addresses at the ends of their ranges. -/
theorem witness_bit_and_address_ranges : (0 : Nat) < 4 ∧ (3 : Nat) < 4 ∧ (4 : Nat) ≤ 4 ∧ (0 : Nat) < 7 ∧ (6 : Nat) < 7 ∧
    (0#4 : Nibble) ≠ effectiveAddress 15 ∧ (15#4 : Nibble) ≠ effectiveAddress 0 := by decide

/-- A jump to its own cell, at the top cell. -/
theorem witness_JmpSetsOnlyThePc : (15#4 : Nibble) = (machineWith [(15, 0x6F)] 15 0 0).pc := by decide

/-- Running on a Jz byte, canonical and alias. -/
theorem witness_JzHaltsWithTheRecord :
    ((machineWith [(1, 0x70)] 1 0x01 0).runState = .running ∧ (machineWith [(1, 0x70)] 1 0x01 0).memRead 1 = 0x70#8 ∧
      0x70#8 &&& 0x70#8 = 0x70#8) ∧
    ((machineWith [(15, 0xFF)] 15 0 0).runState = .running ∧ (machineWith [(15, 0xFF)] 15 0 0).memRead 15 = 0xFF#8 ∧
      0xFF#8 &&& 0x70#8 = 0x70#8) := by decide

/-- Two states that agree on nothing but what Add, Load, Disp, Shl, Str and Jz read: the first two share `register` and
pc, and cell 0. -/
theorem witness_ReadAndWriteMatrix :
    let s₁ := machineWith [(0, 0x70), (3, 1)] 0 5 0
    let s₂ := machineWith [(0, 0x70), (3, 2)] 0 5 9
    s₁.register = s₂.register ∧ s₁.pc = s₂.pc ∧ s₁.memRead 0 = s₂.memRead 0 ∧ s₁.fetchByte = s₂.fetchByte ∧
    (∀ i ∈ [Instr.add 0, .and 0, .shl 0, .disp 0, .load 0, .str 0, .jmp 0, .jz 0],
      (after (exec i s₁)).isSome ∧ (after (exec i s₂)).isSome) ∧ haltedMachine.runState = .halted := by decide

/-- Cells that hold the first and the last row of the table of 42_shift_shl.md R58. -/
theorem witness_ShlRewritesInstructions : (machineWith [] 0 0 0).memRead 3 = encode (.add 0) ∧
    (machineWith [(15, 0x7F)] 0 0 0).memRead 15 = encode (.jz 15) := by decide

theorem witness_StepRunsTheDecodedInstruction : State.reset.runState = .running := by decide

theorem witness_HaltedStepsChangeNothing : haltedMachine.runState = .halted ∧
    after (step haltedMachine) = some haltedMachine := by decide

/-- A Running machine on a Jmp, on a Jz, and on an advancing kind at cell 15. -/
theorem witness_PcAdvanceByKind : (machineWith [(3, 0x6F)] 3 0 0).fetchInstr = .jmp 15 ∧
    (machineWith [(7, 0x72)] 7 0 0).fetchInstr = .jz 2 ∧ (machineWith [(15, 0x2F)] 15 0 0).fetchInstr = .shl 15 ∧
    (machineWith [(7, 0x72)] 7 0 0).runState = .running := by decide

theorem witness_TopOfMemoryWrapsToCellZero : (machineWith [(15, 0x5F)] 15 0 0).runState = .running ∧
    (machineWith [(15, 0x5F)] 15 0 0).pc = 15#4 ∧
    (machineWith [(15, 0x5F)] 15 0 0).fetchInstr.kind ∉ [Kind.jmp, .jz] := by decide

/-- V6.4 and P2: a Str and a Shl that write the cell fetched next, one of them across the top of memory. -/
theorem witness_StoreSeenByTheNextFetch :
    ((machineWith [(2, 0x53)] 2 0x64 0).runState = .running ∧ (machineWith [(2, 0x53)] 2 0x64 0).fetchInstr = .str 3 ∧
      (3#4 : Nibble) = (machineWith [(2, 0x53)] 2 0x64 0).pc + 1) ∧
    ((machineWith [(15, 0x20), (0, 0x18)] 15 0 0).runState = .running ∧
      (machineWith [(15, 0x20), (0, 0x18)] 15 0 0).fetchInstr = .shl 0 ∧
      (0#4 : Nibble) = (machineWith [(15, 0x20), (0, 0x18)] 15 0 0).pc + 1) := by decide

theorem witness_SelfRewriteCompletesAsFetched :
    ((machineWith [(5, 0x55)] 5 0xFF 0).runState = .running ∧ (machineWith [(5, 0x55)] 5 0xFF 0).fetchInstr = .str 5) ∧
    ((machineWith [(15, 0x2F)] 15 0 0).runState = .running ∧ (machineWith [(15, 0x2F)] 15 0 0).fetchInstr = .shl 15) := by
  decide

/-- A step that halts and one that does not, both from Running with no fault. -/
theorem witness_OnlyJzBytesFault :
    (State.reset.runState = .running ∧ State.reset.fault = none ∧
      (after (step State.reset)).map (·.runState) = some .running) ∧
    ((State.reset.loadImage jzImage).runState = .running ∧ (State.reset.loadImage jzImage).fault = none ∧
      (after (step (State.reset.loadImage jzImage))).map (·.runState) = some .halted) := by decide

theorem witness_JumpToSelfParks : (machineWith [(4, 0x64)] 4 0 0).fetchInstr = .jmp (machineWith [(4, 0x64)] 4 0 0).pc := by
  decide

/-- A Running machine on a Disp, a Running one on an Add, a Halted one. -/
theorem witness_LatchIsWriteOnly : (machineWith [(1, 0x30)] 1 0 0).runState = .running ∧
    (machineWith [(1, 0x30)] 1 0 0).fetchInstr = .disp 0 ∧ State.reset.fetchInstr.kind ≠ .disp ∧
    haltedMachine.runState = .halted := by decide

/-- The invariant in a Running state with a step to another, and in a Halted one. -/
theorem witness_StepKeepsTheInvariant : State.reset.Inv ∧ after (step State.reset) = some { State.reset with pc := 1 } ∧
    haltedMachine.Inv ∧ after (step haltedMachine) = some haltedMachine := by
  refine ⟨⟨by decide, rfl⟩, by decide, ⟨by decide, ?_⟩, by decide⟩
  exact show haltedMachine.fault = some (.unimplementedOpcode haltedMachine.pc (haltedMachine.memRead haltedMachine.pc)) ∧
    (decode (haltedMachine.memRead haltedMachine.pc)).kind = .jz by decide

/-- A host that loads a Jz and steps reaches a Halted machine; one that does nothing is in the reset state. -/
theorem witness_FaultRecordInEveryReachableState :
    (Session.start.applyAll [.load jzImage, .step]).map (·.machine.runState) = some .halted ∧
    Session.start.applyAll [] = some Session.start ∧ HostOp.step ≠ .reset ∧ haltedMachine.fault ≠ none ∧
    ((Session.start.applyAll [.load jzImage, .step]).bind (·.apply .step)).map (·.machine.fault) =
      some (some (.unimplementedOpcode 0 0x70)) := by decide

theorem witness_OnlyResetLeavesHalted : haltedSession.machine.runState = .halted ∧ haltedSession.phase = .stepping ∧
    HostOp.reset ∉ [HostOp.step, .snapshot, .step] ∧
    haltedSession.applyAll [.step, .snapshot, .step] = some haltedSession := by decide

/-- A Load, a Step and a Reset each of which changes the machine. -/
theorem witness_EngineIsTheOnlyMutator :
    (Session.start.apply (.load jzImage)).map (·.machine) = some (State.reset.loadImage jzImage) ∧
    State.reset.loadImage jzImage ≠ State.reset ∧
    (Session.apply ⟨State.reset, .loaded⟩ .step).map (·.machine) = some { State.reset with pc := 1 } ∧
    ({ State.reset with pc := 1 } : State) ≠ State.reset ∧
    haltedSession.apply .reset = some Session.start ∧ Session.start.machine ≠ haltedSession.machine := by decide

/-- Each phase, with the operation it forbids and one it allows. -/
theorem witness_HostOperationsTable : Session.start.phase = .unloaded ∧ Session.start.apply .step = none ∧
    (⟨State.reset, .loaded⟩ : Session).phase ≠ .unloaded ∧
    (⟨State.reset, .loaded⟩ : Session).apply (.load scenarioImage) = none ∧ haltedSession.phase ≠ .unloaded ∧
    haltedSession.apply (.load scenarioImage) = none := by decide

/-- A run that ends at the limit and one that ends with the fault before it. -/
theorem witness_RunEndsAtLimitOrFault :
    (match runImage scenarioImage 2 with | .next r => some (r.stepsTaken, r.signal) | _ => none) =
      some (2, .stepLimitReached) ∧
    (match runImage jzImage 2 with | .next r => some (r.stepsTaken, r.signal) | _ => none) =
      some (1, .unimplementedOpcode) := by decide

end Sys2Proof.Tests
end

/-! PROOFS. State, reset and what each instruction reads and writes (spec/10_state.md R9, R15, R16): facts about the
kinds, the execute phase, the step and the host's operations first, then the three statements. -/

namespace Sys2Proof

/-- An instruction of a known kind is that kind with an operand. -/
theorem Instr.kind_eq_iff {i : Instr} {k : Kind} : i.kind = k ↔ ∃ n, i = k.instr n := by
  constructor
  · rintro rfl
    exact ⟨i.operand, by cases i <;> rfl⟩
  · rintro ⟨n, rfl⟩
    cases k <;> rfl

end Sys2Proof

namespace Sys2Proof.Machine

/-! ## What the execute phase leaves unchanged (the write column of R15) -/

section Frame

variable {i : Instr} {s t : State}

theorem exec_keeps_register (h : exec i s = .next t) (hk : i.kind ∉ [Kind.add, .and, .load]) :
    t.register = s.register := by
  cases i with
  | add n | and n | load n => simp [Instr.kind] at hk
  | shl n | disp n | str n | jmp n | jz n => cases h; rfl

theorem exec_keeps_bcd (h : exec i s = .next t) (hk : i.kind ≠ .disp) : t.bcd = s.bcd := by
  cases i with
  | disp n => exact absurd rfl hk
  | add n | and n | shl n | load n | str n | jmp n | jz n => cases h; rfl

theorem exec_keeps_runState_fault (h : exec i s = .next t) (hk : i.kind ≠ .jz) :
    t.runState = s.runState ∧ t.fault = s.fault := by
  cases i with
  | jz n => exact absurd rfl hk
  | add n | and n | shl n | disp n | load n | str n | jmp n => cases h; exact ⟨rfl, rfl⟩

theorem exec_keeps_cell (h : exec i s = .next t) {a : Nibble}
    (ha : i.kind ∈ [Kind.shl, .str] → a ≠ effectiveAddress i.operand) : t.memRead a = s.memRead a := by
  cases i with
  | shl n | str n =>
    have hne : a ≠ n := ha (by simp [Instr.kind])
    cases h
    simp [hne]
  | add n | and n | disp n | load n | jmp n | jz n => cases h; rfl

theorem exec_jz_keeps_pc (h : exec i s = .next t) (hk : i.kind = .jz) : t.pc = s.pc := by
  obtain ⟨n, rfl⟩ := Instr.kind_eq_iff.mp hk
  cases h
  rfl

end Frame

/-! ## What the written values depend on (the read column of R15) -/

section Reads

variable {i : Instr} {s₁ s₂ t₁ t₂ : State} (h₁ : exec i s₁ = .next t₁) (h₂ : exec i s₂ = .next t₂)
include h₁ h₂

theorem exec_alu_register_congr (hk : i.kind ∈ [Kind.add, .and]) (hr : s₁.register = s₂.register) :
    t₁.register = t₂.register := by
  simp only [List.mem_cons, List.not_mem_nil, or_false] at hk
  rcases hk with hk | hk <;> obtain ⟨n, rfl⟩ := Instr.kind_eq_iff.mp hk <;> cases h₁ <;> cases h₂
  · exact congrArg (aluAdd · (immediate n)) hr
  · exact congrArg (aluAnd · (immediate n)) hr

theorem exec_load_register_congr (hk : i.kind = .load) (hc : s₁.memRead i.operand = s₂.memRead i.operand) :
    t₁.register = t₂.register := by
  obtain ⟨n, rfl⟩ := Instr.kind_eq_iff.mp hk
  cases h₁
  cases h₂
  exact hc

theorem exec_disp_bcd_congr (hk : i.kind = .disp) (hc : s₁.memRead i.operand = s₂.memRead i.operand) :
    t₁.bcd = t₂.bcd := by
  obtain ⟨n, rfl⟩ := Instr.kind_eq_iff.mp hk
  cases h₁
  cases h₂
  exact hc

theorem exec_shl_cell_congr (hk : i.kind = .shl) (hc : s₁.memRead i.operand = s₂.memRead i.operand) :
    t₁.memRead i.operand = t₂.memRead i.operand := by
  obtain ⟨n, rfl⟩ := Instr.kind_eq_iff.mp hk
  have hv : aluShl (s₁.memRead n) = aluShl (s₂.memRead n) := congrArg aluShl hc
  cases h₁
  cases h₂
  simpa [Kind.instr, Instr.operand] using hv

theorem exec_str_cell_congr (hk : i.kind = .str) (hr : s₁.register = s₂.register) :
    t₁.memRead i.operand = t₂.memRead i.operand := by
  obtain ⟨n, rfl⟩ := Instr.kind_eq_iff.mp hk
  cases h₁
  cases h₂
  simpa [Kind.instr, Instr.operand] using hr

theorem exec_jmp_pc_eq (hk : i.kind = .jmp) : t₁.pc = t₂.pc := by
  obtain ⟨n, rfl⟩ := Instr.kind_eq_iff.mp hk
  cases h₁
  cases h₂
  rfl

theorem exec_pc_congr (hk : i.kind ≠ .jmp) (hp : s₁.pc = s₂.pc) : t₁.pc = t₂.pc := by
  cases i with
  | jmp n => exact absurd rfl hk
  | jz n => cases h₁; cases h₂; exact hp
  | add n | and n | shl n | disp n | load n | str n => cases h₁; cases h₂; exact congrArg nextPc hp

theorem exec_jz_record_congr (hk : i.kind = .jz) (hp : s₁.pc = s₂.pc) (hb : s₁.fetchByte = s₂.fetchByte) :
    t₁.runState = t₂.runState ∧ t₁.fault = t₂.fault := by
  obtain ⟨n, rfl⟩ := Instr.kind_eq_iff.mp hk
  cases h₁
  cases h₂
  exact ⟨rfl, by simp [hp, hb]⟩

end Reads

/-! ## The latch -/

/-- From two states that differ in `bcd` alone, the execute phase makes the same changes, and only Disp, which
overwrites `bcd`, loses the difference. -/
theorem exec_setBcd (i : Instr) (s : State) (v : Byte) :
    ∃ t, exec i s = .next t ∧ exec i (s.setBcd v) = .next (if i.kind = .disp then t else t.setBcd v) := by
  cases i <;> exact ⟨_, rfl, rfl⟩

/-! ## The step -/

theorem step_of_halted {s : State} (h : s.runState = .halted) : step s = .next s := by
  simp [step, State.isHalted, State.heldWhileHalted, h]

theorem step_of_running {s : State} (h : s.runState = .running) : step s = exec s.fetchInstr s := by
  simp [step, State.isHalted, h]

/-! ## The host's load and the lifecycle -/

/-- After a load each cell holds its byte of the image (70_reset_and_hazards.md R80). -/
theorem memRead_loadImage (s : State) (image : Image) (a : Nibble) :
    (s.loadImage image).memRead a = image[a.toNat]'a.isLt := by
  simp [State.memRead, Memory.read_storeFrom, a.isLt]

theorem Session.stepped_eq_some {c d : Session} (h : c.stepped = some d) :
    ∃ t, step c.machine = .next t ∧ d = ⟨t, .stepping⟩ := by
  unfold Session.stepped at h
  split at h
  · next t ht => exact ⟨t, ht, (Option.some.inj h).symm⟩
  · cases h
  · cases h

/-- Everything an operation of the host can do (40_engine_cycle.md R51). -/
theorem Session.apply_cases {c d : Session} {op : HostOp} (h : c.apply op = some d) :
    (op = .reset ∧ d = Session.start) ∨
    (∃ image, op = .load image ∧ c.phase = .unloaded ∧ d = ⟨c.machine.loadImage image, .loaded⟩) ∨
    (op = .step ∧ c.phase ≠ .unloaded ∧ ∃ t, step c.machine = .next t ∧ d = ⟨t, .stepping⟩) ∨
    (op = .snapshot ∧ d = c) := by
  obtain ⟨m, p⟩ := c
  cases op with
  | reset => exact .inl ⟨rfl, (Option.some.inj h).symm⟩
  | load image =>
    cases p with
    | unloaded => exact .inr (.inl ⟨image, rfl, rfl, (Option.some.inj h).symm⟩)
    | loaded | stepping => cases h
  | step =>
    cases p with
    | unloaded => cases h
    | loaded | stepping => exact .inr (.inr (.inl ⟨rfl, by simp, Session.stepped_eq_some h⟩))
  | snapshot => exact .inr (.inr (.inr ⟨rfl, (Option.some.inj h).symm⟩))

/-- No operation but Reset makes a Halted machine run (70_reset_and_hazards.md R79). -/
theorem Session.apply_halted {c d : Session} {op : HostOp} (hc : c.machine.runState = .halted)
    (h : c.apply op = some d) (hop : op ≠ .reset) : d.machine.runState = .halted := by
  rcases Session.apply_cases h with ⟨rfl, -⟩ | ⟨image, -, -, rfl⟩ | ⟨-, -, t, ht, rfl⟩ | ⟨-, rfl⟩
  · exact absurd rfl hop
  · exact hc
  · rw [step_of_halted hc] at ht
    cases ht
    exact hc
  · exact hc

/-! ## The statements -/

/-- Settles O11: the reset values are computed, the first fetch reads the loaded image, and every operation but Reset
leaves a Halted machine Halted. -/
theorem resetGivesEveryElementItsValue : Obligations.ResetGivesEveryElementItsValue := by
  unfold Obligations.ResetGivesEveryElementItsValue
  refine ⟨fun s => ⟨fun a => rfl, rfl, rfl, rfl, rfl, rfl⟩, fun s s' => rfl, fun s image => ?_, fun c => rfl, ?_⟩
  · exact memRead_loadImage s.resetOp image 0#4
  · intro c d op hc h hd
    by_contra hop
    have hhalted := Session.apply_halted hc h hop
    simp [hd] at hhalted

/-- Settles O24: the frame lemmas give what is written, the congruence lemmas what is read. -/
theorem readAndWriteMatrix : Obligations.ReadAndWriteMatrix := by
  unfold Obligations.ReadAndWriteMatrix
  refine ⟨fun i s t h => ?writes, fun i s₁ s₂ t₁ t₂ h₁ h₂ => ?reads, fun s => step_of_halted⟩
  case writes =>
    exact ⟨exec_keeps_register h, exec_keeps_bcd h, exec_keeps_runState_fault h, exec_jz_keeps_pc h,
      fun a => exec_keeps_cell h⟩
  case reads =>
    exact ⟨exec_alu_register_congr h₁ h₂, exec_load_register_congr h₁ h₂, exec_disp_bcd_congr h₁ h₂,
      exec_shl_cell_congr h₁ h₂, exec_str_cell_congr h₁ h₂, exec_jmp_pc_eq h₁ h₂, exec_pc_congr h₁ h₂,
      exec_jz_record_congr h₁ h₂⟩

/-- Settles O35: a Halted machine keeps both latches; a Running one executes the same instruction in both states, since
the fetch does not read `bcd`, and `exec_setBcd` relates the results. -/
theorem latchIsWriteOnly : Obligations.LatchIsWriteOnly := by
  unfold Obligations.LatchIsWriteOnly
  intro s v
  cases hs : s.runState with
  | halted =>
    exact ⟨s, s.setBcd v, step_of_halted hs, step_of_halted hs, rfl, by simp, fun _ => ⟨rfl, rfl⟩⟩
  | running =>
    obtain ⟨t, ht, hu⟩ := exec_setBcd s.fetchInstr s v
    refine ⟨t, _, (step_of_running hs).trans ht, (step_of_running (s := s.setBcd v) hs).trans hu, ?_, ?_, ?_⟩
    · split <;> rfl
    · intro n _ hi
      rw [hi] at ht
      cases ht
      simp [hi, Instr.kind]
    · intro hk
      have hk : s.fetchInstr.kind ≠ .disp := by simpa using hk
      simp [hk, exec_keeps_bcd ht hk]

end Sys2Proof.Machine

/-! PROOFS. The memory primitives and an instruction that writes its own cell (spec/20_memory.md R20, R29): what a cell
reads as after a write and after a write with the default advance, then the two statements. -/

namespace Sys2Proof.Machine

/-! ## One write -/

theorem memRead_memWrite_self (s : State) (a : Nibble) (v : Byte) : (s.memWrite a v).memRead a = v := by
  rw [memRead_memWrite, if_pos rfl]

theorem memRead_memWrite_of_ne (s : State) {a b : Nibble} (v : Byte) (h : b ≠ a) :
    (s.memWrite a v).memRead b = s.memRead b := by
  rw [memRead_memWrite, if_neg h]

/-! ## One write and the default advance: the effect Str and Shl share -/

/-- The default advance in the natural numbers (40_engine_cycle.md R47). -/
theorem nextPc_toNat (p : Nibble) : (nextPc p).toNat = (p.toNat + 1) % 16 := BitVec.toNat_add p 1#4

/-- The written cell, the latches, the pc and the other cells after a write and the default advance. -/
theorem memWrite_advance_effect (s : State) (a : Nibble) (v : Byte) :
    (s.memWrite a v).advance.memRead a = v ∧ (s.memWrite a v).advance.register = s.register ∧
    (s.memWrite a v).advance.bcd = s.bcd ∧ (s.memWrite a v).advance.pc.toNat = (s.pc.toNat + 1) % 16 ∧
    ∀ b, b ≠ a → (s.memWrite a v).advance.memRead b = s.memRead b :=
  ⟨memRead_memWrite_self s a v, rfl, rfl, nextPc_toNat s.pc, fun _ => memRead_memWrite_of_ne s v⟩

theorem step_of_fetch_str {s : State} {n : Nibble} (hs : s.runState = .running) (hi : s.fetchInstr = .str n) :
    step s = .next (s.memWrite n s.register).advance := by
  rw [step_of_running hs, hi, exec_str]

theorem step_of_fetch_shl {s : State} {n : Nibble} (hs : s.runState = .running) (hi : s.fetchInstr = .shl n) :
    step s = .next (s.memWrite n (aluShl (s.memRead n))).advance := by
  rw [step_of_running hs, hi, exec_shl]

/-! ## The statements -/

/-- Settles O10: the two reads after a write; a write touches no element but the memory. -/
theorem memoryPrimitives : Obligations.MemoryPrimitives := by
  unfold Obligations.MemoryPrimitives
  intro s a v
  exact ⟨memRead_memWrite_self s a v, fun _ => memRead_memWrite_of_ne s v, rfl, rfl, rfl, rfl, rfl⟩

/-- Settles O32: the instruction is fixed before its write, so the step is one write to the cell at the pc, of the
register or of the shifted byte that was fetched there, and the default advance. -/
theorem selfRewriteCompletesAsFetched : Obligations.SelfRewriteCompletesAsFetched := by
  unfold Obligations.SelfRewriteCompletesAsFetched
  intro s hs
  constructor
  · intro hstr
    exact ⟨_, step_of_fetch_str hs hstr, memWrite_advance_effect s s.pc s.register⟩
  · intro hshl
    exact ⟨_, step_of_fetch_shl hs hshl, memWrite_advance_effect s s.pc (s.fetchByte <<< 1)⟩

end Sys2Proof.Machine

/-! PROOFS. The codec (spec/30_encoding.md R32, R35, R40 to R42): the fields of a byte and the values of kinds,
instructions and canonical bytes first, then how `decode`, `encode` and the assembler fit together, then the five
statements. -/

namespace Sys2Proof

/-! ## The fields of a byte -/

section Fields

variable (b : Byte)

theorem opcodeField_toNat : (opcodeField b).toNat = b.toNat % 128 / 16 := by
  simp only [opcodeField, BitVec.extractLsb'_toNat, Nat.shiftRight_eq_div_pow]
  omega

theorem operandField_toNat : (operandField b).toNat = b.toNat % 16 := by
  simp [operandField, BitVec.extractLsb'_toNat]

theorem bit7_clear_iff : b.getLsbD 7 = false ↔ b.toNat < 128 := by
  have h := BitVec.msb_eq_false_iff_two_mul_lt (x := b)
  rw [BitVec.msb_eq_getLsbD_last] at h
  exact h.trans (by omega)

theorem toNat_and_0x7F : (b &&& 0x7F#8).toNat = b.toNat % 128 := Nat.and_two_pow_sub_one_eq_mod b.toNat 7

variable {b}

theorem toNat_or_0x80 (h : b.toNat < 128) : (b ||| 0x80#8).toNat = b.toNat + 128 :=
  calc (b ||| 0x80#8).toNat
    _ = 2 ^ 7 * 1 ||| b.toNat := Nat.or_comm ..
    _ = 2 ^ 7 * 1 + b.toNat := (Nat.two_pow_add_eq_or_of_lt h 1).symm
    _ = b.toNat + 128 := Nat.add_comm ..

end Fields

/-! ## Kinds and instruction values -/

theorem Kind.order_getElem?_index (k : Kind) :
    [Kind.add, .and, .shl, .disp, .load, .str, .jmp, .jz][k.index]? = some k := by
  cases k <;> rfl

theorem kindOfOpcode_index (o : BitVec 3) : (kindOfOpcode o).index = o.toNat := by
  revert o
  decide

@[simp] theorem Kind.kind_instr (k : Kind) (n : Nibble) : (k.instr n).kind = k := by cases k <;> rfl

@[simp] theorem Kind.operand_instr (k : Kind) (n : Nibble) : (k.instr n).operand = n := by cases k <;> rfl

theorem Kind.index_injective : Function.Injective Kind.index := by
  intro k l h
  have hget := Kind.order_getElem?_index k
  rw [h, Kind.order_getElem?_index l] at hget
  exact (Option.some.inj hget).symm

theorem Kind.index_lt (k : Kind) : k.index < 8 := by cases k <;> decide

theorem Instr.instr_kind_operand (i : Instr) : i.kind.instr i.operand = i := by cases i <;> rfl

/-- The kind's place in the order of R34 and the operand determine an instruction. -/
theorem Instr.eq_of_index_operand {i j : Instr} (hk : i.kind.index = j.kind.index)
    (hn : i.operand.toNat = j.operand.toNat) : i = j := by
  rw [← i.instr_kind_operand, ← j.instr_kind_operand, Kind.index_injective hk, BitVec.eq_of_toNat_eq hn]

theorem Instr.canonicalByte (i : Instr) : Laws.CanonicalByte.Statement i := by
  cases i with
  | add n => exact Laws.CanonicalByte.add n
  | and n => exact Laws.CanonicalByte.and n
  | shl n => exact Laws.CanonicalByte.shl n
  | disp n => exact Laws.CanonicalByte.disp n
  | load n => exact Laws.CanonicalByte.load n
  | str n => exact Laws.CanonicalByte.str n
  | jmp n => exact Laws.CanonicalByte.jmp n
  | jz n => exact Laws.CanonicalByte.jz n

/-! ## The decoder and the canonical byte -/

section Codec

variable (b : Byte) (i : Instr)

theorem decode_kind_index : (decode b).kind.index = b.toNat % 128 / 16 := by
  rw [decode, Kind.kind_instr, kindOfOpcode_index, opcodeField_toNat]

theorem decode_operand_toNat : (decode b).operand.toNat = b.toNat % 16 := by
  rw [decode, Kind.operand_instr, operandField_toNat]

theorem encode_toNat : (encode i).toNat = 16 * i.kind.index + i.operand.toNat := by
  obtain ⟨-, hvalue, -⟩ := i.canonicalByte
  exact hvalue

theorem encode_toNat_lt : (encode i).toNat < 128 := by
  have hk := i.kind.index_lt
  have hn := i.operand.isLt
  rw [encode_toNat]
  omega

/-- Encoding what a byte decodes to keeps its low seven bits (R41). -/
theorem encode_decode_toNat : (encode (decode b)).toNat = b.toNat % 128 := by
  rw [encode_toNat, decode_kind_index, decode_operand_toNat]
  omega

theorem decode_encode : decode (encode i) = i := by
  have hk := i.kind.index_lt
  have hn := i.operand.isLt
  apply Instr.eq_of_index_operand
  · rw [decode_kind_index, encode_toNat]
    omega
  · rw [decode_operand_toNat, encode_toNat]
    omega

theorem encode_decode : encode (decode b) = b &&& 0x7F#8 :=
  BitVec.eq_of_toNat_eq ((encode_decode_toNat b).trans (toNat_and_0x7F b).symm)

theorem encode_decode_eq_self_iff : encode (decode b) = b ↔ b.getLsbD 7 = false := by
  rw [bit7_clear_iff, ← BitVec.toNat_inj, encode_decode_toNat]
  omega

variable {b i}

/-- A byte decodes to the instruction whose canonical byte is its low seven bits (R33). -/
theorem decode_eq_iff_low_bits : decode b = i ↔ b.toNat % 128 = (encode i).toNat := by
  constructor
  · rintro rfl
    exact (encode_decode_toNat b).symm
  · intro h
    have hbyte : encode (decode b) = encode i := BitVec.eq_of_toNat_eq ((encode_decode_toNat b).trans h)
    rw [← decode_encode (decode b), hbyte, decode_encode]

/-- The two encodings of an instruction: its canonical byte and that byte with bit 7 set (R33). -/
theorem decode_eq_iff : decode b = i ↔ b = encode i ∨ b = encode i ||| 0x80#8 := by
  have hb := b.isLt
  have hi := encode_toNat_lt i
  rw [decode_eq_iff_low_bits, ← BitVec.toNat_inj, ← BitVec.toNat_inj, toNat_or_0x80 hi]
  omega

theorem encode_ne_encode_or_0x80 : encode i ≠ encode i ||| 0x80#8 := by
  rw [← BitVec.toNat_ne_iff_ne, toNat_or_0x80 (encode_toNat_lt i)]
  omega

end Codec

/-! ## The assembler -/

/-- The assembler gives every instruction its canonical byte. -/
theorem AsmValue.encode_ofInstr (i : Instr) : (AsmValue.ofInstr i).encode = .ok (Sys2Proof.encode i) := by
  obtain ⟨-, -, hsome⟩ := i.canonicalByte
  cases h : (AsmValue.ofInstr i).encode with
  | ok b =>
    rw [h] at hsome
    exact congrArg Except.ok (Option.some.inj hsome)
  | error e =>
    rw [h] at hsome
    cases hsome

/-- The assembler looks only at the kind and the operand a value names, which for `Nop` are those of `Add(0)` (R42). -/
theorem AsmValue.encode_value_kind_operand (v : AsmValue) : (AsmValue.value v.kind v.operand).encode = v.encode := by
  cases v <;> rfl

theorem AsmValue.exists_ofInstr_eq_value (k : Kind) {n : Int} (h : 0 ≤ n ∧ n ≤ 15) :
    ∃ i, AsmValue.ofInstr i = .value k n := by
  refine ⟨k.instr (BitVec.ofInt 4 n), ?_⟩
  have hn : ((BitVec.ofInt 4 n).toNat : Int) = n := by
    rw [BitVec.toNat_ofInt]
    omega
  rw [AsmValue.ofInstr, Kind.kind_instr, Kind.operand_instr, hn]

theorem AsmValue.encode_of_not_inRange {v : AsmValue} (h : ¬ (0 ≤ v.operand ∧ v.operand ≤ 15)) :
    v.encode = .error .operandOutOfRange := by
  simp [AsmValue.encode, AsmValue.wellFormed, h]

/-- A value the assembler accepts names an instruction, and its byte is that instruction's canonical byte. -/
theorem AsmValue.exists_ofInstr_of_encode {v : AsmValue} {b : Byte} (h : v.encode = .ok b) :
    ∃ i, AsmValue.ofInstr i = .value v.kind v.operand ∧ b = Sys2Proof.encode i := by
  by_cases hr : 0 ≤ v.operand ∧ v.operand ≤ 15
  · obtain ⟨i, hi⟩ := AsmValue.exists_ofInstr_eq_value v.kind hr
    rw [← AsmValue.encode_value_kind_operand, ← hi, AsmValue.encode_ofInstr] at h
    exact ⟨i, hi, (Except.ok.inj h).symm⟩
  · rw [AsmValue.encode_of_not_inRange hr] at h
    cases h

/-! ## The statements about the codec -/

/-- Settles O7: an accepted value names an instruction and its byte is that instruction's canonical byte, so all five
clauses are facts about `decode` and the canonical byte. -/
theorem codecLaws : Obligations.CodecLaws := by
  unfold Obligations.CodecLaws
  refine ⟨fun v b h => ?_, fun i => ⟨AsmValue.encode_ofInstr i, decode_encode i⟩,
    fun b => ⟨encode_decode b, encode_decode_eq_self_iff b⟩, fun i b => decode_eq_iff,
    fun i => encode_ne_encode_or_0x80⟩
  obtain ⟨i, hi, rfl⟩ := AsmValue.exists_ofInstr_of_encode h
  rw [decode_encode, hi]

/-- Settles O6: a value in range names an instruction, whose canonical byte has the value claimed. -/
theorem assemblerEncodesExactlyNibbles : Obligations.AssemblerEncodesExactlyNibbles := by
  unfold Obligations.AssemblerEncodesExactlyNibbles
  intro k n
  constructor
  · intro hr
    obtain ⟨i, hi⟩ := AsmValue.exists_ofInstr_eq_value k hr
    refine ⟨encode i, hi ▸ AsmValue.encode_ofInstr i, ?_, (bit7_clear_iff _).mpr (encode_toNat_lt i)⟩
    obtain ⟨rfl, rfl⟩ := AsmValue.value.inj hi
    rw [encode_toNat]
    omega
  · intro hr
    apply AsmValue.encode_of_not_inRange
    simp only [AsmValue.operand]
    omega

end Sys2Proof

namespace Sys2Proof.Machine

/-- Masking off bit 7 adds 128 to a negative signed reading; it is no absolute value (30_encoding.md R32). -/
theorem low_bits_eq_sint (b : Byte) :
    ((b.toNat % 128 : Nat) : Int) = if sint b < 0 then sint b + 128 else sint b := by
  have hb := b.isLt
  have h7 := bit7_clear_iff b
  unfold sint
  cases h : b.getLsbD 7 with
  | false =>
    have hlow := h7.mp h
    simp only [Bool.false_eq_true, if_false]
    omega
  | true =>
    have hhigh : ¬ b.toNat < 128 := by simp [← h7, h]
    simp only [if_true]
    omega

theorem immediate_toNat (n : Nibble) : (immediate n).toNat = n.toNat :=
  BitVec.toNat_setWidth_of_le (by decide)

/-- `Add(0)` is the default advance alone (30_encoding.md R42). -/
theorem exec_add_zero (s : State) : exec (.add 0) s = .next s.advance := by
  have hsum : aluAdd s.register (immediate 0) = s.register := BitVec.add_zero s.register
  rw [exec_add, hsum]
  rfl

/-! ## The statements about the decoder, the operand and the no-op -/

/-- Settles O1: the kind is found by its index, the operand by its value. -/
theorem decodeSplitsLowSevenBits : Obligations.DecodeSplitsLowSevenBits := by
  unfold Obligations.DecodeSplitsLowSevenBits
  intro b v
  refine ⟨?kind, ?operand, (Instr.instr_kind_operand _).symm, low_bits_eq_sint b⟩
  case kind =>
    rw [← decode_kind_index b]
    exact Kind.order_getElem?_index _
  case operand =>
    rw [decode_operand_toNat]
    omega

/-- Settles O4: the immediate is the zero-extended operand; an address and a jump target are the operand itself. -/
theorem operandIsUnsignedNibble : Obligations.OperandIsUnsignedNibble := by
  unfold Obligations.OperandIsUnsignedNibble
  refine ⟨decode_operand_toNat, fun n => ⟨immediate_toNat n, ?_, effectiveAddress_eq n, jumpTarget_eq n⟩⟩
  apply BitVec.eq_of_toNat_eq
  rw [immediate_toNat, BitVec.toNat_append]
  simp

/-- Settles O9: the three bytes are computed; executing `Add(0)` is the default advance alone. -/
theorem nopIsAddZero : Obligations.NopIsAddZero := by
  unfold Obligations.NopIsAddZero
  exact ⟨rfl, rfl, rfl, exec_add_zero⟩

end Sys2Proof.Machine

/-! PROOFS. The step, the run and the host's operations (spec/40_engine_cycle.md R44 to R52): what each update of the
state does to the snapshot, with the step as the pseudocode of R44 computes it; then the pc after a step, runs of the
machine, the lifecycle, and the six statements. -/

namespace Sys2Proof.Machine

/-! ## The snapshot of an updated state -/

section SnapshotOfUpdate

variable (s : State)

theorem snapshot_memory_getElem (a : Nat) (h : a < 16) : s.snapshot.memory[a] = s.memRead (BitVec.ofFin ⟨a, h⟩) :=
  Vector.getElem_ofFn h

theorem snapshot_memory_getElem_toNat (a : Nibble) : s.snapshot.memory[a.toNat]'a.isLt = s.memRead a :=
  snapshot_memory_getElem s a.toNat a.isLt

theorem snapshot_setRegister (v : Byte) : (s.setRegister v).snapshot = { s.snapshot with register := v } := rfl

theorem snapshot_setBcd (v : Byte) : (s.setBcd v).snapshot = { s.snapshot with bcd := v } := rfl

theorem snapshot_setPc (p : Nibble) : (s.setPc p).snapshot = { s.snapshot with pc := p } := rfl

theorem snapshot_raise (p : Nibble) (b : Byte) : (s.raiseUnimplementedOpcode p b).snapshot =
    { s.snapshot with runState := .halted, fault := some (.unimplementedOpcode p b) } := rfl

theorem snapshot_memWrite (a : Nibble) (v : Byte) : (s.memWrite a v).snapshot =
    { s.snapshot with memory := s.snapshot.memory.set a.toNat v a.isLt } := by
  have hmem : (s.memWrite a v).snapshot.memory = s.snapshot.memory.set a.toNat v a.isLt := by
    ext i hi : 1
    rw [Vector.getElem_set, snapshot_memory_getElem, snapshot_memory_getElem, memRead_memWrite]
    simp only [← BitVec.toNat_inj, BitVec.toNat_ofFin, eq_comm]
  exact congrArg (fun m => { s.snapshot with memory := m }) hmem

/-- The default advance as the pseudocode sums it. -/
theorem nextPc_eq_ofNat (p : Nibble) : nextPc p = BitVec.ofNat 4 ((p.toNat + 1) % 16) := by
  rw [← nextPc_toNat, BitVec.ofNat_toNat, BitVec.setWidth_eq]

theorem snapshot_advance :
    s.advance.snapshot = { s.snapshot with pc := BitVec.ofNat 4 ((s.pc.toNat + 1) % 16) } := by
  rw [← nextPc_eq_ofNat]
  rfl

end SnapshotOfUpdate

/-! ## The three computations in the natural numbers -/

theorem aluAdd_immediate_eq_ofNat (a : Byte) (n : Nibble) :
    aluAdd a (immediate n) = BitVec.ofNat 8 ((a.toNat + n.toNat) % 256) := by
  apply BitVec.eq_of_toNat_eq
  rw [aluAdd, BitVec.toNat_add, immediate_toNat, BitVec.toNat_ofNat, Nat.mod_mod]

theorem immediate_eq_ofNat (n : Nibble) : immediate n = BitVec.ofNat 8 n.toNat := by
  rw [← immediate_toNat, BitVec.ofNat_toNat, BitVec.setWidth_eq]

theorem aluShl_eq_ofNat (m : Byte) : aluShl m = BitVec.ofNat 8 (2 * m.toNat % 256) := by
  apply BitVec.eq_of_toNat_eq
  rw [aluShl, BitVec.toNat_shiftLeft, BitVec.toNat_ofNat, Nat.mod_mod, Nat.shiftLeft_eq, Nat.mul_comm]

/-! ## The step against the pseudocode of R44 -/

/-- Each kind does what its line of the pseudocode says. -/
theorem exec_snapshot (i : Instr) (s : State) : ∃ t, exec i s = .next t ∧
    t.snapshot = s.snapshot.pseudocodeCase s.fetchByte i.kind.index i.operand := by
  cases i with
  | add n =>
    refine ⟨_, exec_add n s, ?_⟩
    rw [snapshot_advance, snapshot_setRegister, aluAdd_immediate_eq_ofNat]
    rfl
  | and n =>
    refine ⟨_, exec_and n s, ?_⟩
    rw [snapshot_advance, snapshot_setRegister, immediate_eq_ofNat]
    rfl
  | shl n =>
    refine ⟨_, exec_shl n s, ?_⟩
    rw [snapshot_advance, snapshot_memWrite, aluShl_eq_ofNat, ← snapshot_memory_getElem_toNat]
    rfl
  | disp n =>
    refine ⟨_, exec_disp n s, ?_⟩
    rw [snapshot_advance, snapshot_setBcd, ← snapshot_memory_getElem_toNat]
    rfl
  | load n =>
    refine ⟨_, exec_load n s, ?_⟩
    rw [snapshot_advance, snapshot_setRegister, ← snapshot_memory_getElem_toNat]
    rfl
  | str n =>
    refine ⟨_, exec_str n s, ?_⟩
    rw [snapshot_advance, snapshot_memWrite]
    rfl
  | jmp n => exact ⟨_, exec_jmp n s, snapshot_setPc s n⟩
  | jz n => exact ⟨_, exec_jz n s, snapshot_raise s s.pc (s.memRead s.pc)⟩

theorem pseudocodeStep_of_halted {s : State} (h : s.runState = .halted) :
    s.snapshot.pseudocodeStep = s.snapshot := by
  have hs : s.snapshot.runState = .halted := h
  simp only [Snapshot.pseudocodeStep, hs]

/-- The pseudocode fetches the byte the engine fetches, and its arithmetic on the byte is the decoder's. -/
theorem pseudocodeStep_of_running {s : State} (h : s.runState = .running) :
    s.snapshot.pseudocodeStep =
      s.snapshot.pseudocodeCase s.fetchByte s.fetchInstr.kind.index s.fetchInstr.operand := by
  have hs : s.snapshot.runState = .running := h
  have hb : s.snapshot.memory[s.snapshot.pc.toNat] = s.fetchByte := snapshot_memory_getElem_toNat s s.pc
  have hk : s.fetchInstr.kind.index = s.fetchByte.toNat % 128 / 16 := decode_kind_index _
  have hn : s.fetchInstr.operand = BitVec.ofNat 4 (s.fetchByte.toNat % 128 % 16) := by
    apply BitVec.eq_of_toNat_eq
    rw [State.fetchInstr, decode_operand_toNat, BitVec.toNat_ofNat]
    omega
  simp only [Snapshot.pseudocodeStep, hs, hb, hk, hn]

/-- No kind faults or refuses. -/
theorem exists_exec_eq_next (i : Instr) (s : State) : ∃ t, exec i s = .next t := by
  cases i <;> exact ⟨_, rfl⟩

/-- Every state has a successor (40_engine_cycle.md R44). -/
theorem exists_step_eq_next (s : State) : ∃ t, step s = .next t := by
  cases hs : s.runState with
  | halted => exact ⟨s, step_of_halted hs⟩
  | running =>
    rw [step_of_running hs]
    exact exists_exec_eq_next s.fetchInstr s

/-! ## Runs of the machine -/

/-- A state that a step leaves as it is stays so over any number of steps. -/
theorem core_run_of_step_self {s : State} (h : step s = .next s) (k : Nat) : core.run k s = .next s := by
  induction k with
  | zero => exact core_run_zero s
  | succ k ih => rw [core_run_succ h, ih]

theorem State.isHalted_iff {s : State} : s.isHalted = true ↔ s.runState = .halted := decide_eq_true_iff

theorem State.running_of_not_isHalted {s : State} (h : ¬ s.isHalted = true) : s.runState = .running := by
  rw [State.isHalted_iff] at h
  cases hs : s.runState with
  | running => rfl
  | halted => exact absurd hs h

theorem State.runFor_zero (s : State) (taken : Nat) : s.runFor 0 taken = .next ⟨s, taken, .stepLimitReached⟩ := rfl

theorem State.runFor_succ {s t : State} (h : step s = .next t) (k taken : Nat) :
    s.runFor (k + 1) taken =
      if t.isHalted then .next ⟨t, taken + 1, .unimplementedOpcode⟩ else t.runFor k (taken + 1) := by
  simp only [State.runFor, Agent.engine_step, h]

/-- What R52 says of a run of `count` steps from `s` under a step limit: where it ends, that each signal has its cause,
and that the machine was Running before every step taken. -/
structure EndsAfter (s : State) (maxSteps count : Nat) (r : RunResult) : Prop where
  run_eq : core.run count s = .next r.state
  count_le : count ≤ maxSteps
  count_eq_of_limit : r.signal = .stepLimitReached → count = maxSteps
  halted_of_fault : r.signal = .unimplementedOpcode → r.state.runState = .halted
  running_before : ∀ k t, k < count → core.run k s = .next t → t.runState = .running

/-- A step of a Running machine goes before a run from the next state. -/
theorem EndsAfter.cons {s t : State} {maxSteps count : Nat} {r : RunResult} (hs : s.runState = .running)
    (ht : step s = .next t) (h : EndsAfter t maxSteps count r) : EndsAfter s (maxSteps + 1) (count + 1) r where
  run_eq := (core_run_succ ht count).trans h.run_eq
  count_le := Nat.succ_le_succ h.count_le
  count_eq_of_limit := fun hr => congrArg Nat.succ (h.count_eq_of_limit hr)
  halted_of_fault := h.halted_of_fault
  running_before := by
    intro k u hk hu
    cases k with
    | zero =>
      cases hu
      exact hs
    | succ k =>
      rw [core_run_succ ht] at hu
      exact h.running_before k u (Nat.lt_of_succ_lt_succ hk) hu

/-- With no step allowed the run ends at the limit where it is. -/
theorem EndsAfter.of_limit_zero (s : State) (taken : Nat) : EndsAfter s 0 0 ⟨s, taken, .stepLimitReached⟩ where
  run_eq := core_run_zero s
  count_le := Nat.le_refl 0
  count_eq_of_limit := fun _ => rfl
  halted_of_fault := nofun
  running_before := nofun

/-- A Halted machine ends the run where it is, whatever the limit. -/
theorem EndsAfter.of_halted {s : State} (h : s.runState = .halted) (maxSteps taken : Nat) :
    EndsAfter s maxSteps 0 ⟨s, taken, .unimplementedOpcode⟩ where
  run_eq := core_run_zero s
  count_le := Nat.zero_le maxSteps
  count_eq_of_limit := nofun
  halted_of_fault := fun _ => h
  running_before := nofun

/-- A run from a Running machine gives a result, and its counter has gone up by the steps of that run. -/
theorem exists_runFor_endsAfter {s : State} (hs : s.runState = .running) (maxSteps taken : Nat) :
    ∃ count r, s.runFor maxSteps taken = .next r ∧ r.stepsTaken = taken + count ∧
      EndsAfter s maxSteps count r := by
  induction maxSteps generalizing s taken with
  | zero => exact ⟨0, _, State.runFor_zero s taken, rfl, .of_limit_zero s taken⟩
  | succ m ih =>
    obtain ⟨t, ht⟩ := exists_step_eq_next s
    rw [State.runFor_succ ht]
    split
    case isTrue hhalt =>
      exact ⟨1, _, rfl, rfl, .cons hs ht (.of_halted (State.isHalted_iff.mp hhalt) m (taken + 1))⟩
    case isFalse hhalt =>
      obtain ⟨count, r, hr, hcount, hends⟩ := ih (State.running_of_not_isHalted hhalt) (taken + 1)
      exact ⟨count + 1, r, hr, by omega, .cons hs ht hends⟩

/-! ## The lifecycle -/

theorem Session.stepped_of_step {c : Session} {t : State} (h : step c.machine = .next t) :
    c.stepped = some ⟨t, .stepping⟩ := by
  simp only [Session.stepped, Agent.engine_step, h]

theorem Session.apply_load (c : Session) (image : Image) :
    c.apply (.load image) = if c.phase = .unloaded then some ⟨c.machine.loadImage image, .loaded⟩ else none := by
  obtain ⟨m, p⟩ := c
  cases p <;> rfl

theorem Session.apply_step_of_unloaded {c : Session} (h : c.phase = .unloaded) : c.apply .step = none := by
  simp only [Session.apply, h]

theorem Session.apply_step_of_loaded {c : Session} (h : c.phase ≠ .unloaded) : c.apply .step = c.stepped := by
  obtain ⟨m, p⟩ := c
  cases p with
  | unloaded => exact absurd rfl h
  | loaded | stepping => rfl

/-! ## The statements -/

/-- Settles O28: a Halted machine and its snapshot both stay; a Running one executes the decoded kind, which is the
line the pseudocode selects. -/
theorem stepIsThePseudocode : Obligations.StepIsThePseudocode := by
  unfold Obligations.StepIsThePseudocode
  intro s
  cases hs : s.runState with
  | halted => exact ⟨s, step_of_halted hs, (pseudocodeStep_of_halted hs).symm⟩
  | running =>
    obtain ⟨t, ht, hsnap⟩ := exec_snapshot s.fetchInstr s
    exact ⟨t, (step_of_running hs).trans ht, hsnap.trans (pseudocodeStep_of_running hs).symm⟩

/-- Settles O27: a step while Halted is a fixed point, and a run of a fixed point stays there. -/
theorem haltedStepsChangeNothing : Obligations.HaltedStepsChangeNothing := by
  unfold Obligations.HaltedStepsChangeNothing
  intro s hs
  exact ⟨step_of_halted hs, core_run_of_step_self (step_of_halted hs)⟩

/-- Settles O29: by the kind of the instruction fetched; six kinds end in the default advance. -/
theorem pcAdvanceByKind : Obligations.PcAdvanceByKind := by
  unfold Obligations.PcAdvanceByKind
  intro s hs
  rw [step_of_running hs]
  cases s.fetchInstr with
  | jmp n => exact ⟨_, exec_jmp n s, rfl, nofun⟩
  | jz n => exact ⟨_, exec_jz n s, rfl, fun _ _ => rfl⟩
  | add n | and n | shl n | disp n | load n | str n => exact ⟨_, rfl, nextPc_toNat s.pc, nofun⟩

/-- Settles O41: the loaded reset state is Running, so its run ends as `EndsAfter` says, counting from 0. -/
theorem runEndsAtLimitOrFault : Obligations.RunEndsAtLimitOrFault := by
  unfold Obligations.RunEndsAtLimitOrFault
  intro image maxSteps
  have hs : (State.reset.loadImage image).runState = .running := rfl
  obtain ⟨count, r, hr, hcount, hends⟩ := exists_runFor_endsAfter hs maxSteps 0
  obtain rfl : r.stepsTaken = count := hcount.trans (Nat.zero_add count)
  exact ⟨r, hr, hends.run_eq, hends.count_le, hends.count_eq_of_limit, hends.halted_of_fault, hends.running_before⟩

/-- Settles O26: a decoded instruction is well formed like every other, and a Running step adds nothing to `exec`. -/
theorem stepRunsTheDecodedInstruction : Obligations.StepRunsTheDecodedInstruction := by
  unfold Obligations.StepRunsTheDecodedInstruction
  intro s hs
  obtain ⟨hwf, -⟩ := (decode (s.memRead s.pc)).canonicalByte
  exact ⟨hwf, step_of_running hs⟩

/-- Settles O40: one clause per operation, then the cells after a load and the elements of a snapshot. -/
theorem hostOperationsTable : Obligations.HostOperationsTable := by
  unfold Obligations.HostOperationsTable
  refine ⟨fun c => ⟨rfl, rfl⟩, Session.apply_load, fun c => ⟨Session.apply_step_of_unloaded, fun hc => ?step⟩,
    fun s image i => memRead_loadImage s image (BitVec.ofFin i),
    fun s => ⟨fun i => snapshot_memory_getElem s i i.isLt, rfl, rfl, rfl, rfl, rfl⟩⟩
  case step =>
    obtain ⟨t, ht⟩ := exists_step_eq_next c.machine
    exact ⟨t, ht, (Session.apply_step_of_loaded hc).trans (Session.stepped_of_step ht)⟩

end Sys2Proof.Machine

/-! PROOFS. Add and And (spec/41_alu_add_and.md R54, R55): the decoder on a byte whose opcode bits match a kind, the
signed reading by ranges, the effect both instructions share, the two results, then the two statements. -/

namespace Sys2Proof

/-! ## A byte that matches a row of the opcode table -/

theorem toNat_and_0x70_div (b : Byte) : (b &&& 0x70#8).toNat / 16 = b.toNat % 128 / 16 :=
  calc (b &&& 0x70#8).toNat / 16
    _ = (b.toNat &&& 0x70) / 2 ^ 4 := by rw [BitVec.toNat_and]; rfl
    _ = b.toNat / 2 ^ 4 &&& 2 ^ 3 - 1 := Nat.and_div_two_pow
    _ = b.toNat / 2 ^ 4 % 2 ^ 3 := Nat.and_two_pow_sub_one_eq_mod _ 3
    _ = b.toNat % 128 / 16 := by omega

/-- Opcode bits that are those of a kind's canonical bytes select that kind, with the low four bits as its operand
(30_encoding.md R32). -/
theorem decode_of_opcode_match (k : Kind) {b : Byte} (h : b &&& 0x70#8 = encode (k.instr 0#4)) :
    decode b = k.instr (b.setWidth 4) := by
  apply Instr.eq_of_index_operand
  · have hbits := toNat_and_0x70_div b
    rw [h, encode_toNat, Kind.kind_instr, Kind.operand_instr, BitVec.toNat_ofNat] at hbits
    rw [decode_kind_index, Kind.kind_instr]
    omega
  · rw [decode_operand_toNat, Kind.operand_instr, BitVec.toNat_setWidth]

end Sys2Proof

namespace Sys2Proof.Machine

/-! ## The signed reading by ranges (00_scope.md R5) -/

theorem sint_of_lt {b : Byte} (h : b.toNat < 128) : sint b = b.toNat := by
  rw [sint, (bit7_clear_iff b).mpr h]
  rfl

theorem sint_of_le {b : Byte} (h : 128 ≤ b.toNat) : sint b = b.toNat - 256 := by
  have h7 : b.getLsbD 7 = true := by
    rw [← Bool.not_eq_false, bit7_clear_iff]
    omega
  rw [sint, if_pos h7]

/-! ## What Add and And leave unchanged -/

/-- The pc and the elements that keep their values after a write to the register and the default advance. -/
theorem setRegister_advance_effect (s : State) (v : Byte) :
    (s.setRegister v).advance.pc.toNat = (s.pc.toNat + 1) % 16 ∧
    (s.setRegister v).advance.bcd = s.bcd ∧ (s.setRegister v).advance.memory = s.memory ∧
    (∀ a, (s.setRegister v).advance.memRead a = s.memRead a) ∧
    (s.setRegister v).advance.runState = s.runState ∧ (s.setRegister v).advance.fault = s.fault :=
  ⟨nextPc_toNat s.pc, rfl, rfl, fun _ => rfl, rfl, rfl⟩

/-! ## The sum -/

section Results

variable (a : Byte) (n : Nibble)

theorem aluAdd_immediate_toNat : (aluAdd a (immediate n)).toNat = (a.toNat + n.toNat) % 256 := by
  rw [aluAdd_immediate_eq_ofNat, BitVec.toNat_ofNat, Nat.mod_mod]

/-- Only a sum past 127 wraps: an addend is never negative (41_alu_add_and.md R54). -/
theorem sint_aluAdd_immediate : sint (aluAdd a (immediate n)) =
    if sint a + n.toNat ≤ 127 then sint a + n.toNat else sint a + n.toNat - 256 := by
  have ha := a.isLt
  have hn := n.isLt
  have hsum := aluAdd_immediate_toNat a n
  rcases Nat.lt_or_ge a.toNat 128 with hlow | hhigh
  · rw [sint_of_lt hlow]
    rcases Nat.lt_or_ge (a.toNat + n.toNat) 128 with hfits | hwraps
    · rw [sint_of_lt (by omega)]
      omega
    · rw [sint_of_le (by omega)]
      omega
  · rw [sint_of_le hhigh]
    rcases Nat.lt_or_ge (a.toNat + n.toNat) 256 with hneg | hcarry
    · rw [sint_of_le (by omega)]
      omega
    · rw [sint_of_lt (by omega)]
      omega

/-! ## The masked byte -/

theorem aluAnd_immediate_getLsbD (i : Nat) :
    (aluAnd a (immediate n)).getLsbD i = (a.getLsbD i && n.getLsbD i) := by
  rw [aluAnd, BitVec.getLsbD_and, immediate, BitVec.getLsbD_setWidth]
  rcases Nat.lt_or_ge i 8 with hi | hi
  · simp [hi]
  · simp [BitVec.getLsbD_of_ge a i hi]

theorem aluAnd_immediate_high_bit {i : Nat} (hi : 4 ≤ i) : (aluAnd a (immediate n)).getLsbD i = false := by
  rw [aluAnd_immediate_getLsbD, BitVec.getLsbD_of_ge n i hi, Bool.and_false]

theorem aluAnd_immediate_toNat_lt : (aluAnd a (immediate n)).toNat < 16 := by
  have hle : (aluAnd a (immediate n)).toNat ≤ (immediate n).toNat := Nat.and_le_right
  rw [immediate_toNat] at hle
  exact hle.trans_lt n.isLt

/-- With the high nibble clear the byte reads as the same number signed and unsigned (41_alu_add_and.md R55). -/
theorem sint_aluAnd_immediate_bounds :
    0 ≤ sint (aluAnd a (immediate n)) ∧ sint (aluAnd a (immediate n)) ≤ 15 := by
  have hlt := aluAnd_immediate_toNat_lt a n
  rw [sint_of_lt (by omega)]
  omega

end Results

/-! ## The statements about Add and And -/

/-- Settles O16: a matching byte decodes to Add; the register holds the sum, read both ways. -/
theorem addWrapsAndAdvances : Obligations.AddWrapsAndAdvances := by
  unfold Obligations.AddWrapsAndAdvances
  refine ⟨fun b h => decode_of_opcode_match .add h, fun n s => ⟨_, exec_add n s, ?_, ?_, ?_⟩⟩
  · exact aluAdd_immediate_toNat s.register n
  · exact sint_aluAdd_immediate s.register n
  · exact setRegister_advance_effect s _

/-- Settles O17: a matching byte decodes to And; the operand has no bit above bit 3, so neither has the result. -/
theorem andMasksTheLowNibble : Obligations.AndMasksTheLowNibble := by
  unfold Obligations.AndMasksTheLowNibble
  refine ⟨fun b h => decode_of_opcode_match .and h, fun n s => ⟨_, exec_and n s, ?_, ?_, ?_⟩⟩
  · exact fun i _ => aluAnd_immediate_getLsbD s.register n i
  · exact fun i => aluAnd_immediate_high_bit s.register n
  · obtain ⟨hnonneg, hle⟩ := sint_aluAnd_immediate_bounds s.register n
    exact ⟨hnonneg, hle, setRegister_advance_effect s _⟩

end Sys2Proof.Machine

/-! PROOFS. Shl (spec/42_shift_shl.md R57): the shifted byte, read as a number and bit by bit, then the cell after one
Shl and after several in a row, then the statement. -/

namespace Sys2Proof.Machine

/-! ## The shifted byte -/

section ShiftedByte

variable (m : Byte)

theorem aluShl_toNat : (aluShl m).toNat = 2 * m.toNat % 256 := by
  rw [aluShl_eq_ofNat, BitVec.toNat_ofNat, Nat.mod_mod]

theorem aluShl_getLsbD_zero : (aluShl m).getLsbD 0 = false := by
  simp [aluShl]

theorem aluShl_getLsbD_succ {i : Nat} (hi : i < 7) : (aluShl m).getLsbD (i + 1) = m.getLsbD i := by
  have hbit : i + 1 < 8 := Nat.succ_lt_succ hi
  rw [aluShl, BitVec.getLsbD_shiftLeft, Nat.add_sub_cancel]
  simp [hbit]

end ShiftedByte

/-! ## The addressed cell after Shl -/

theorem exec_shl_memRead {n : Nibble} {s t : State} (h : exec (.shl n) s = .next t) :
    t.memRead n = s.memRead n <<< 1 := by
  cases h
  exact memRead_memWrite_self s n (aluShl (s.memRead n))

/-- Along Shl(n) in a row, whatever the other elements are, the shifts of cell `n` add up. -/
theorem memRead_after_shls {n : Nibble} {run : Nat → State} {count : Nat}
    (h : ∀ k, k < count → exec (.shl n) (run k) = .next (run (k + 1))) :
    (run count).memRead n = (run 0).memRead n <<< count := by
  induction count with
  | zero => exact (BitVec.shiftLeft_zero _).symm
  | succ c ih =>
    have hprev := ih fun k hk => h k (Nat.lt_succ_of_lt hk)
    rw [exec_shl_memRead (h c (Nat.lt_succ_self c)), hprev, BitVec.shiftLeft_add]

/-! ## The statement about Shl -/

/-- Settles O18: a matching byte decodes to Shl; its one write puts the shifted byte in the cell, and eight shifts of a
byte leave none of its bits. -/
theorem shlDoublesTheCell : Obligations.ShlDoublesTheCell := by
  unfold Obligations.ShlDoublesTheCell
  refine ⟨fun b h => decode_of_opcode_match .shl h, fun n s => ⟨_, exec_shl n s, ?_⟩, fun n run hrun => ?_⟩
  · obtain ⟨hcell, hregister, hbcd, hpc, hothers⟩ := memWrite_advance_effect s n (aluShl (s.memRead n))
    rw [effectiveAddress_eq, hcell]
    exact ⟨aluShl_toNat _, fun _ => aluShl_getLsbD_succ _, aluShl_getLsbD_zero _, hothers, hpc, hregister, hbcd,
      rfl, rfl⟩
  · rw [memRead_after_shls hrun]
    exact BitVec.shiftLeft_eq_zero (Nat.le_refl 8)

end Sys2Proof.Machine

/-! PROOFS. Disp, Load and Str (spec/43_memory_transfer.md R59 to R61): the effect of a write to the latch, then the
three statements. -/

namespace Sys2Proof.Machine

/-! ## What Disp leaves unchanged -/

/-- The pc and the elements that keep their values after a write to `bcd` and the default advance. -/
theorem setBcd_advance_effect (s : State) (v : Byte) :
    (s.setBcd v).advance.pc.toNat = (s.pc.toNat + 1) % 16 ∧
    (s.setBcd v).advance.register = s.register ∧ (s.setBcd v).advance.memory = s.memory ∧
    (∀ a, (s.setBcd v).advance.memRead a = s.memRead a) ∧
    (s.setBcd v).advance.runState = s.runState ∧ (s.setBcd v).advance.fault = s.fault :=
  ⟨nextPc_toNat s.pc, rfl, rfl, fun _ => rfl, rfl, rfl⟩

/-! ## The statements about the memory transfers -/

/-- Settles O19: a matching byte decodes to Disp; its one write is to the latch, of the cell read. -/
theorem dispCopiesCellToLatch : Obligations.DispCopiesCellToLatch := by
  unfold Obligations.DispCopiesCellToLatch
  refine ⟨fun b h => decode_of_opcode_match .disp h, fun n s => ⟨_, exec_disp n s, ?_, ?_⟩⟩
  · rw [advance_bcd, setBcd_bcd, effectiveAddress_eq]
  · exact setBcd_advance_effect s _

/-- Settles O20: a matching byte decodes to Load; its one write is to the register, of the cell read. -/
theorem loadCopiesCellToRegister : Obligations.LoadCopiesCellToRegister := by
  unfold Obligations.LoadCopiesCellToRegister
  refine ⟨fun b h => decode_of_opcode_match .load h, fun n s => ⟨_, exec_load n s, ?_, ?_⟩⟩
  · rw [advance_register, setRegister_register, effectiveAddress_eq]
  · exact setRegister_advance_effect s _

/-- Settles O21: a matching byte decodes to Str; its one write is to the addressed cell, of the register. -/
theorem strCopiesRegisterToCell : Obligations.StrCopiesRegisterToCell := by
  unfold Obligations.StrCopiesRegisterToCell
  refine ⟨fun b h => decode_of_opcode_match .str h, fun n s => ⟨_, exec_str n s, ?_⟩⟩
  obtain ⟨hcell, hregister, hbcd, hpc, hothers⟩ := memWrite_advance_effect s n s.register
  rw [effectiveAddress_eq]
  exact ⟨hcell, hothers, hpc, hregister, hbcd, rfl, rfl⟩

end Sys2Proof.Machine

/-! PROOFS. Jmp and Jz (spec/44_jump.md R63, R64): a jump to the pc itself, the effect of a jump and of the fault, the
step that fetches a Jz byte, then the two statements. -/

namespace Sys2Proof.Machine

/-! ## The jump -/

theorem State.setPc_self (s : State) : s.setPc s.pc = s := rfl

/-- The byte fetched next and the elements that keep their values after a write to the pc. -/
theorem setPc_effect (s : State) (n : Nibble) :
    (s.setPc n).fetchByte = s.memRead n ∧ (s.setPc n).register = s.register ∧ (s.setPc n).bcd = s.bcd ∧
    (s.setPc n).memory = s.memory ∧ (∀ a, (s.setPc n).memRead a = s.memRead a) ∧
    (s.setPc n).runState = s.runState ∧ (s.setPc n).fault = s.fault :=
  ⟨rfl, rfl, rfl, rfl, fun _ => rfl, rfl, rfl⟩

/-! ## The fault -/

/-- The elements that keep their values when the fault is taken (60_exceptions.md R70). -/
theorem raise_effect (s : State) (p : Nibble) (b : Byte) :
    (s.raiseUnimplementedOpcode p b).pc = s.pc ∧ (s.raiseUnimplementedOpcode p b).register = s.register ∧
    (s.raiseUnimplementedOpcode p b).bcd = s.bcd ∧ (s.raiseUnimplementedOpcode p b).memory = s.memory ∧
    ∀ a, (s.raiseUnimplementedOpcode p b).memRead a = s.memRead a :=
  ⟨rfl, rfl, rfl, rfl, fun _ => rfl⟩

/-- A Running machine that fetches a Jz takes the fault, and the record holds the byte fetched. -/
theorem step_of_fetch_jz {s : State} {n : Nibble} (hs : s.runState = .running) (hi : s.fetchInstr = .jz n) :
    step s = .next (s.raiseUnimplementedOpcode s.pc (s.memRead s.pc)) := by
  rw [step_of_running hs, hi, exec_jz]

/-- The fault is final: a step from the state it leaves changes nothing (40_engine_cycle.md R50). -/
theorem step_raise (s : State) (p : Nibble) (b : Byte) :
    step (s.raiseUnimplementedOpcode p b) = .next (s.raiseUnimplementedOpcode p b) :=
  step_of_halted (raise_runState s p b)

/-! ## The statements about Jmp and Jz -/

/-- Settles O22: a matching byte decodes to Jmp; its one write is to the pc, so a write of the old pc is no change. -/
theorem jmpSetsOnlyThePc : Obligations.JmpSetsOnlyThePc := by
  unfold Obligations.JmpSetsOnlyThePc
  refine ⟨fun b h => decode_of_opcode_match .jmp h, fun n s => ⟨_, exec_jmp n s, setPc_pc s n, ?_⟩⟩
  obtain ⟨hfetch, hkept⟩ := setPc_effect s n
  refine ⟨hfetch, fun hn => ?_, hkept⟩
  rw [hn, State.setPc_self]

/-- Settles O23: a matching byte decodes to Jz, so a Running step on it takes the fault; the step after it is one while
Halted. -/
theorem jzHaltsWithTheRecord : Obligations.JzHaltsWithTheRecord := by
  unfold Obligations.JzHaltsWithTheRecord
  have hdecode : ∀ b : Byte, b &&& 0x70#8 = 0x70#8 → decode b = .jz (b.setWidth 4) :=
    fun b h => decode_of_opcode_match .jz h
  refine ⟨hdecode, fun n s => ⟨_, exec_jz n s, raise_runState s _ _, raise_fault s _ _, raise_effect s _ _⟩, ?_⟩
  rintro s b hs rfl hb
  exact ⟨_, step_of_fetch_jz hs (hdecode _ hb), rfl, step_raise s _ _⟩

end Sys2Proof.Machine

/-! PROOFS. The fault and the Halted state (spec/60_exceptions.md R66, R71): the opcode bits that select a kind, a step
on any other kind than Jz, the host's operations on a Halted session, then the two statements. -/

namespace Sys2Proof

/-! ## The opcode bits of a byte and its kind -/

/-- Masking with `0x70` leaves the opcode bits in place, sixteen times the kind's place in the order of R34. -/
theorem toNat_and_0x70 (b : Byte) : (b &&& 0x70#8).toNat = 16 * (decode b).kind.index := by
  have hhigh := toNat_and_0x70_div b
  have hlow : (b &&& 0x70#8).toNat % 16 = 0 :=
    calc (b.toNat &&& 0x70) % 2 ^ 4
      _ = b.toNat % 2 ^ 4 &&& 0 := Nat.and_mod_two_pow
      _ = 0 := Nat.and_zero _
  rw [decode_kind_index]
  omega

/-- The opcode bits are those of a kind's canonical bytes exactly when the byte is of that kind (30_encoding.md R34). -/
theorem opcode_match_iff_kind (k : Kind) (b : Byte) :
    b &&& 0x70#8 = encode (k.instr 0#4) ↔ (decode b).kind = k := by
  rw [← BitVec.toNat_inj, toNat_and_0x70, encode_toNat, Kind.kind_instr, Kind.operand_instr, BitVec.toNat_ofNat,
    ← Kind.index_injective.eq_iff]
  omega

end Sys2Proof

namespace Sys2Proof.Machine

/-! ## The step that does not fault -/

/-- A Running machine that fetches another kind than Jz stays Running and keeps its fault record. -/
theorem step_of_fetch_ne_jz {s : State} (hs : s.runState = .running) (hk : s.fetchInstr.kind ≠ .jz) :
    ∃ t, step s = .next t ∧ t.runState = .running ∧ t.fault = s.fault := by
  obtain ⟨t, ht⟩ := exists_exec_eq_next s.fetchInstr s
  obtain ⟨hrun, hfault⟩ := exec_keeps_runState_fault ht hk
  exact ⟨t, (step_of_running hs).trans ht, hrun.trans hs, hfault⟩

/-! ## The host's operations on a Halted session -/

/-- After the first step of the lifecycle the host can no longer load, so no operation but Reset has an effect on a
Halted machine. -/
theorem Session.apply_eq_self_of_halted {c d : Session} {op : HostOp} (hc : c.machine.runState = .halted)
    (hphase : c.phase = .stepping) (hop : op ≠ .reset) (h : c.apply op = some d) : d = c := by
  rcases Session.apply_cases h with ⟨rfl, -⟩ | ⟨image, -, hunloaded, -⟩ | ⟨-, -, t, ht, rfl⟩ | ⟨-, rfl⟩
  · exact absurd rfl hop
  · rw [hphase] at hunloaded
    cases hunloaded
  · rw [step_of_halted hc] at ht
    cases ht
    rw [← hphase]
  · rfl

/-- A sequence of operations is its first operation and then the others. -/
theorem Session.applyAll_cons_eq_some {c d : Session} {op : HostOp} {ops : List HostOp}
    (h : c.applyAll (op :: ops) = some d) : ∃ e, c.apply op = some e ∧ e.applyAll ops = some d := by
  rw [Session.applyAll] at h
  split at h
  · next e he => exact ⟨e, he, h⟩
  · cases h

theorem Session.applyAll_eq_self_of_halted {c d : Session} {ops : List HostOp} (hc : c.machine.runState = .halted)
    (hphase : c.phase = .stepping) (hops : HostOp.reset ∉ ops) (h : c.applyAll ops = some d) : d = c := by
  induction ops with
  | nil => exact (Option.some.inj h).symm
  | cons op ops ih =>
    obtain ⟨e, he, hrest⟩ := Session.applyAll_cons_eq_some h
    obtain ⟨hop, hops⟩ := List.ne_and_not_mem_of_not_mem_cons hops
    obtain rfl := Session.apply_eq_self_of_halted hc hphase hop.symm he
    exact ih hops hrest

/-! ## The statements -/

/-- Settles O33: the byte at the pc matches the Jz row exactly when a Jz is fetched; that step takes the fault, and one
on any other kind keeps the run state and the empty record. -/
theorem onlyJzBytesFault : Obligations.OnlyJzBytesFault := by
  unfold Obligations.OnlyJzBytesFault
  intro s hs hfault
  have hmatch : s.memRead s.pc &&& 0x70#8 = 0x70#8 ↔ s.fetchInstr.kind = .jz := opcode_match_iff_kind .jz _
  rw [hmatch]
  by_cases hk : s.fetchInstr.kind = .jz
  case pos =>
    obtain ⟨n, hi⟩ := Instr.kind_eq_iff.mp hk
    exact ⟨_, step_of_fetch_jz hs hi, iff_of_true rfl hk, fun _ => rfl, nofun⟩
  case neg =>
    obtain ⟨t, ht, hrun, hkept⟩ := step_of_fetch_ne_jz hs hk
    have hnot : t.runState ≠ .halted := by simp [hrun]
    exact ⟨t, ht, iff_of_false hnot hk, fun h => absurd h hnot, fun _ => hkept.trans hfault⟩

/-- Settles O39: each operation but Reset leaves a Halted session as it is, so a sequence of them does; Reset does not
look at the session. -/
theorem onlyResetLeavesHalted : Obligations.OnlyResetLeavesHalted := by
  unfold Obligations.OnlyResetLeavesHalted
  exact ⟨fun _ _ _ => Session.applyAll_eq_self_of_halted, fun _ => rfl⟩

end Sys2Proof.Machine

/-! PROOFS. The Program Loader and the host's load (spec/70_reset_and_hazards.md R80 to R82): what the assembler answers
for a list of values and for an image, when the Loader fails, which images it makes, then the three statements. -/

namespace Sys2Proof

theorem AsmValue.exists_encode_of_inRange {v : AsmValue} (h : 0 ≤ v.operand ∧ v.operand ≤ 15) :
    ∃ b, v.encode = .ok b := by
  obtain ⟨i, hi⟩ := AsmValue.exists_ofInstr_eq_value v.kind h
  exact ⟨Sys2Proof.encode i, by rw [← AsmValue.encode_value_kind_operand, ← hi, AsmValue.encode_ofInstr]⟩

theorem AsmValue.bit7_clear_of_encode {v : AsmValue} {b : Byte} (h : v.encode = .ok b) : b.getLsbD 7 = false := by
  obtain ⟨i, -, rfl⟩ := AsmValue.exists_ofInstr_of_encode h
  exact (bit7_clear_iff _).mpr (encode_toNat_lt i)

end Sys2Proof

namespace Sys2Proof.Machine

/-! ## Encoding a list of values -/

theorem encodeAll_cons_of_ok {v : AsmValue} {b : Byte} (h : v.encode = .ok b) (vs : List AsmValue) :
    encodeAll (v :: vs) = (encodeAll vs).map (b :: ·) := by
  simp only [encodeAll, h]
  cases encodeAll vs <;> rfl

theorem encodeAll_cons_of_error {v : AsmValue} {e : AsmError} (h : v.encode = .error e) (vs : List AsmValue) :
    encodeAll (v :: vs) = .error e := by
  simp only [encodeAll, h]

/-- The bytes of a list are those of its values, in order. -/
theorem encodeAll_eq_ok_iff {p : List AsmValue} {bs : List Byte} :
    encodeAll p = .ok bs ↔ List.Forall₂ (fun v b => v.encode = .ok b) p bs := by
  induction p generalizing bs with
  | nil => simp [encodeAll, eq_comm]
  | cons v vs ih =>
    rw [List.forall₂_cons_left_iff]
    cases hv : v.encode with
    | error e => simp [encodeAll_cons_of_error hv]
    | ok b =>
      simp only [encodeAll_cons_of_ok hv, ← ih]
      cases encodeAll vs <;> simp [Except.map, eq_comm]

theorem exists_encodeAll_of_inRange {p : List AsmValue} (h : ∀ v ∈ p, 0 ≤ v.operand ∧ v.operand ≤ 15) :
    ∃ bs, encodeAll p = .ok bs := by
  induction p with
  | nil => exact ⟨[], rfl⟩
  | cons v vs ih =>
    obtain ⟨hv, hvs⟩ := List.forall_mem_cons.mp h
    obtain ⟨b, hb⟩ := AsmValue.exists_encode_of_inRange hv
    obtain ⟨bs, hbs⟩ := ih hvs
    exact ⟨b :: bs, by rw [encodeAll_cons_of_ok hb, hbs]; rfl⟩

/-- One operand out of range stops the whole list, wherever it stands. -/
theorem encodeAll_of_not_inRange {p : List AsmValue} (h : ¬ ∀ v ∈ p, 0 ≤ v.operand ∧ v.operand ≤ 15) :
    encodeAll p = .error .operandOutOfRange := by
  induction p with
  | nil => exact absurd (List.forall_mem_nil _) h
  | cons v vs ih =>
    by_cases hv : 0 ≤ v.operand ∧ v.operand ≤ 15
    · obtain ⟨b, hb⟩ := AsmValue.exists_encode_of_inRange hv
      rw [encodeAll_cons_of_ok hb, ih fun hvs => h (List.forall_mem_cons.mpr ⟨hv, hvs⟩)]
      rfl
    · exact encodeAll_cons_of_error (AsmValue.encode_of_not_inRange hv) vs

/-! ## The image of a program -/

theorem assembleImage_of_length_ne {p : List AsmValue} (h : p.length ≠ 16) :
    assembleImage p = .error .programSizeMismatch := if_neg h

theorem assembleImage_of_not_inRange {p : List AsmValue} (hlen : p.length = 16)
    (h : ¬ ∀ v ∈ p, 0 ≤ v.operand ∧ v.operand ≤ 15) : assembleImage p = .error .operandOutOfRange := by
  simp only [assembleImage, Config.memCells, hlen, encodeAll_of_not_inRange h, if_true]

/-- The Loader makes an image exactly when the image's bytes are those of the values, one value for each cell. -/
theorem assembleImage_eq_ok_iff {p : List AsmValue} {image : Image} :
    assembleImage p = .ok image ↔ encodeAll p = .ok image.toList := by
  have hlength {bs : List Byte} (h : encodeAll p = .ok bs) : p.length = bs.length :=
    (encodeAll_eq_ok_iff.mp h).length_eq
  by_cases hp : p.length = 16
  case neg =>
    rw [assembleImage_of_length_ne hp]
    exact iff_of_false nofun fun h => hp ((hlength h).trans image.length_toList)
  case pos =>
    cases hbs : encodeAll p with
    | error e => simp [assembleImage, Config.memCells, hp, hbs]
    | ok bs =>
      have hlen : bs.length = 16 := (hlength hbs).symm.trans hp
      simp [assembleImage, Config.memCells, hp, hbs, hlen, ← Vector.toList_inj]

theorem exists_assembleImage_of_inRange {p : List AsmValue} (hlen : p.length = 16)
    (h : ∀ v ∈ p, 0 ≤ v.operand ∧ v.operand ≤ 15) : ∃ image, assembleImage p = .ok image := by
  obtain ⟨bs, hbs⟩ := exists_encodeAll_of_inRange h
  have hsize : bs.length = 16 := (encodeAll_eq_ok_iff.mp hbs).length_eq.symm.trans hlen
  exact ⟨⟨bs.toArray, hsize⟩, assembleImage_eq_ok_iff.mpr hbs⟩

theorem length_of_assembleImage {p : List AsmValue} {image : Image} (h : assembleImage p = .ok image) :
    p.length = 16 :=
  (encodeAll_eq_ok_iff.mp (assembleImage_eq_ok_iff.mp h)).length_eq.trans image.length_toList

/-- `IMAGE[i] = encode(program[i])` (70_reset_and_hazards.md R80). -/
theorem encode_of_assembleImage {p : List AsmValue} {image : Image} (h : assembleImage p = .ok image) {i : Fin 16}
    {v : AsmValue} (hv : p[i.val]? = some v) : v.encode = .ok image[i] := by
  obtain ⟨hi, rfl⟩ := List.getElem?_eq_some_iff.mp hv
  have hbytes := encodeAll_eq_ok_iff.mp (assembleImage_eq_ok_iff.mp h)
  exact hbytes.get hi (image.length_toList.symm ▸ i.isLt)

/-! ## The images the Loader makes -/

/-- Bit 7 is clear in the bytes that are canonical, and in no others (70_reset_and_hazards.md R82). -/
theorem producedByLoader_iff_canonical {image : Image} :
    Image.ProducedByLoader image ↔ ∀ i : Fin 16, image[i] = encode (decode image[i]) :=
  forall_congr' fun i => (encode_decode_eq_self_iff image[i]).symm.trans eq_comm

/-- The program an image decodes to, one value for each cell. -/
def Image.disassemble (image : Image) : List AsmValue := image.toList.map fun b => .ofInstr (decode b)

/-- A canonical image is the Loader's image of the program it decodes to. -/
theorem assembleImage_disassemble {image : Image} (h : ∀ i : Fin 16, image[i] = encode (decode image[i])) :
    assembleImage image.disassemble = .ok image := by
  rw [assembleImage_eq_ok_iff, encodeAll_eq_ok_iff, Image.disassemble, List.forall₂_map_left_iff, List.forall₂_same]
  intro b hb
  obtain ⟨i, hi, rfl⟩ := Vector.getElem_of_mem (Vector.mem_toList_iff.mp hb)
  calc (AsmValue.ofInstr (decode image[i])).encode
    _ = .ok (encode (decode image[i])) := AsmValue.encode_ofInstr _
    _ = .ok image[i] := congrArg Except.ok (h ⟨i, hi⟩).symm

theorem exists_assembleImage_iff_producedByLoader {image : Image} :
    (∃ p, assembleImage p = .ok image) ↔ Image.ProducedByLoader image := by
  constructor
  · rintro ⟨p, h⟩ i
    have hi : i.val < p.length := (length_of_assembleImage h).symm ▸ i.isLt
    exact AsmValue.bit7_clear_of_encode (encode_of_assembleImage h (List.getElem?_eq_getElem hi))
  · intro h
    exact ⟨image.disassemble, assembleImage_disassemble (producedByLoader_iff_canonical.mp h)⟩

/-! ## The Loader -/

section Loader

variable {p : List AsmValue} (s : State)

theorem loadProgram_of_ok {image : Image} (h : assembleImage p = .ok image) :
    s.loadProgram p = .ok (s.loadImage image) := by
  simp only [State.loadProgram, h]

theorem loadProgram_of_error {e : AsmError} (h : assembleImage p = .error e) : s.loadProgram p = .error e := by
  simp only [State.loadProgram, h]

end Loader

/-! ## The statements -/

/-- Settles O13: the Loader's answer is that of `assembleImage`, which looks at the length first and then fails at an
operand out of range. -/
theorem loaderFailsInTwoCases : Obligations.LoaderFailsInTwoCases := by
  unfold Obligations.LoaderFailsInTwoCases
  intro s p inRange
  refine ⟨fun hlen _ => ?_, fun hlen hr => ?_, fun hlen _ => ?_, fun hlen hr => ?_⟩
  · exact loadProgram_of_error s (assembleImage_of_length_ne hlen)
  · exact loadProgram_of_error s (assembleImage_of_not_inRange hlen hr)
  · exact ⟨_, loadProgram_of_error s (assembleImage_of_length_ne hlen)⟩
  · obtain ⟨image, himage⟩ := exists_assembleImage_of_inRange hlen hr
    exact ⟨image, himage, loadProgram_of_ok s himage⟩

/-- Settles O12: the load writes only the memory and the reset state is Running at cell 0, so the first step fetches
`IMAGE[0]`; the Loader's image is read off cell by cell. -/
theorem loadWritesTheWholeImage : Obligations.LoadWritesTheWholeImage := by
  unfold Obligations.LoadWritesTheWholeImage
  refine ⟨fun s image => ?load, fun image => ?boot, fun p image h => ?loader⟩
  case load => exact ⟨fun i => memRead_loadImage s image (BitVec.ofFin i), rfl, rfl, rfl, rfl, rfl⟩
  case boot =>
    have hfetch : (State.reset.loadImage image).fetchByte = image[0] := memRead_loadImage State.reset image 0#4
    refine ⟨rfl, rfl, rfl, ?_, rfl, rfl⟩
    rw [step_of_running rfl, State.fetchInstr, hfetch]
  case loader => exact ⟨length_of_assembleImage h, fun _ _ => encode_of_assembleImage h⟩

/-- Settles O14: every state has a next state; the Loader's images are the encodings of 16 values, and those are the
images with bit 7 clear. -/
theorem loaderImagesHaveBitSevenClear : Obligations.LoaderImagesHaveBitSevenClear := by
  unfold Obligations.LoaderImagesHaveBitSevenClear
  exact ⟨fun s image => exists_step_eq_next (s.loadImage image), fun image =>
    ⟨exists_assembleImage_iff_producedByLoader, Iff.rfl, producedByLoader_iff_canonical⟩⟩

end Sys2Proof.Machine

/-! PROOFS. The invariant of the machine (spec/10_state.md R12, R16, spec/60_exceptions.md R66, R67): what the two run
states make of it, that a step and every operation of the host keep it, then the three statements. -/

namespace Sys2Proof.Machine

/-! ## The fault record in each run state -/

section FaultRecord

variable {s : State}

theorem faultConsistent_of_running (h : s.runState = .running) : s.FaultConsistent ↔ s.fault = none := by
  simp only [State.FaultConsistent, h]

theorem faultConsistent_of_halted (h : s.runState = .halted) : s.FaultConsistent ↔
    s.fault = some (.unimplementedOpcode s.pc (s.memRead s.pc)) ∧ (decode (s.memRead s.pc)).kind = .jz := by
  simp only [State.FaultConsistent, h]

/-- A record is there exactly while the machine is Halted (10_state.md R12). -/
theorem State.FaultConsistent.fault_eq_none_iff (h : s.FaultConsistent) :
    s.fault = none ↔ s.runState = .running := by
  cases hs : s.runState with
  | running => exact iff_of_true ((faultConsistent_of_running hs).mp h) rfl
  | halted =>
    obtain ⟨hrecord, -⟩ := (faultConsistent_of_halted hs).mp h
    exact iff_of_false (by simp [hrecord]) nofun

theorem State.FaultConsistent.halted_of_fault (h : s.FaultConsistent) (hf : s.fault ≠ none) :
    s.runState = .halted := by
  cases hs : s.runState with
  | running => exact absurd (h.fault_eq_none_iff.mpr hs) hf
  | halted => rfl

end FaultRecord

/-- A byte of the Jz kind decodes to Jz of its low four bits (30_encoding.md R32). -/
theorem decode_eq_jz_of_kind {b : Byte} (h : (decode b).kind = .jz) : decode b = .jz (b.setWidth 4) :=
  decode_of_opcode_match .jz ((opcode_match_iff_kind .jz b).mpr h)

/-! ## The step -/

theorem wf_of_step {s t : State} (h : Memory.wf s.memory) (ht : step s = .next t) : Memory.wf t.memory := by
  cases hs : s.runState with
  | halted =>
    rw [step_of_halted hs] at ht
    cases ht
    exact h
  | running => exact wf_of_exec h ((step_of_running hs).symm.trans ht)

/-- The fault taken on a Jz cell records that cell; every other kind stays Running with the empty record. -/
theorem faultConsistent_of_step {s t : State} (h : s.FaultConsistent) (ht : step s = .next t) :
    t.FaultConsistent := by
  cases hs : s.runState with
  | halted =>
    rw [step_of_halted hs] at ht
    cases ht
    exact h
  | running =>
    by_cases hk : s.fetchInstr.kind = .jz
    case pos =>
      obtain ⟨n, hi⟩ := Instr.kind_eq_iff.mp hk
      rw [step_of_fetch_jz hs hi] at ht
      cases ht
      exact (faultConsistent_of_halted (raise_runState s _ _)).mpr ⟨rfl, hk⟩
    case neg =>
      obtain ⟨u, hu, hrun, hkept⟩ := step_of_fetch_ne_jz hs hk
      rw [hu] at ht
      cases ht
      exact (faultConsistent_of_running hrun).mpr (hkept.trans (h.fault_eq_none_iff.mpr hs))

theorem inv_of_step {s t : State} (h : s.Inv) (ht : step s = .next t) : t.Inv := by
  obtain ⟨hwf, hfault⟩ := h
  exact ⟨wf_of_step hwf ht, faultConsistent_of_step hfault ht⟩

theorem inv_reset : State.reset.Inv := ⟨wf_reset, (faultConsistent_of_running rfl).mpr rfl⟩

/-! ## The host's operations -/

/-- A load could overwrite the cell a fault record speaks of, so the invariant carries over to the loaded machine
because the host loads only while the machine is Running. -/
theorem inv_loadImage {s : State} (h : s.Inv) (hs : s.runState = .running) (image : Image) :
    (s.loadImage image).Inv := by
  obtain ⟨hwf, hfault⟩ := h
  have hrun : (s.loadImage image).runState = .running := hs
  exact ⟨wf_loadImage hwf image, (faultConsistent_of_running hrun).mpr (hfault.fault_eq_none_iff.mpr hs)⟩

/-- The invariant of the lifecycle: that of the machine, and Running for as long as the host may still load. -/
structure Session.Inv (c : Session) : Prop where
  machine : c.machine.Inv
  running_of_unloaded : c.phase = .unloaded → c.machine.runState = .running

theorem Session.inv_start : Session.start.Inv where
  machine := inv_reset
  running_of_unloaded := fun _ => rfl

theorem Session.inv_of_apply {c d : Session} {op : HostOp} (h : c.Inv) (hd : c.apply op = some d) : d.Inv := by
  rcases Session.apply_cases hd with ⟨-, rfl⟩ | ⟨image, -, hphase, rfl⟩ | ⟨-, -, t, ht, rfl⟩ | ⟨-, rfl⟩
  · exact Session.inv_start
  · exact ⟨inv_loadImage h.machine (h.running_of_unloaded hphase) image, nofun⟩
  · exact ⟨inv_of_step h.machine ht, nofun⟩
  · exact h

/-- What every operation keeps, a sequence of operations keeps. -/
theorem Session.applyAll_induction {P : Session → Prop}
    (hkeep : ∀ {c d : Session} {op : HostOp}, P c → c.apply op = some d → P d) {c d : Session} {ops : List HostOp}
    (hc : P c) (h : c.applyAll ops = some d) : P d := by
  induction ops generalizing c with
  | nil => exact Option.some.inj h ▸ hc
  | cons op ops ih =>
    obtain ⟨e, he, hrest⟩ := Session.applyAll_cons_eq_some h
    exact ih (hkeep hc he) hrest

/-- No operation but Reset clears or overwrites a fault record. -/
theorem Session.fault_of_apply {c d : Session} {op : HostOp} (hc : c.machine.runState = .halted)
    (hop : op ≠ .reset) (h : c.apply op = some d) : d.machine.fault = c.machine.fault := by
  rcases Session.apply_cases h with ⟨rfl, -⟩ | ⟨image, -, -, rfl⟩ | ⟨-, -, t, ht, rfl⟩ | ⟨-, rfl⟩
  · exact absurd rfl hop
  · exact loadImage_fault c.machine image
  · rw [step_of_halted hc] at ht
    cases ht
    rfl
  · rfl

/-! ## The statements about the invariant -/

/-- Settles O37: a step keeps the canonical memory and the agreement of the fault record with the run state. -/
theorem stepKeepsTheInvariant : Obligations.StepKeepsTheInvariant := by
  unfold Obligations.StepKeepsTheInvariant
  exact fun _ _ => inv_of_step

/-- Settles O38: the session right after Reset has the lifecycle's invariant and every operation keeps it; the clauses
are what it says of the session reached. -/
theorem faultRecordInEveryReachableState : Obligations.FaultRecordInEveryReachableState := by
  unfold Obligations.FaultRecordInEveryReachableState
  intro ops c h
  obtain ⟨⟨hwf, hfault⟩, -⟩ := Session.applyAll_induction Session.inv_of_apply Session.inv_start h
  refine ⟨hwf, hfault.fault_eq_none_iff, fun hhalt => ?record, fun op d hop hf => ?kept⟩
  case record =>
    obtain ⟨hrecord, hkind⟩ := (faultConsistent_of_halted hhalt).mp hfault
    exact ⟨hrecord, decode_eq_jz_of_kind hkind⟩
  case kept => exact Session.fault_of_apply (hfault.halted_of_fault hf) hop

/-- Settles O36: nothing is listed in the reset memory, and the reset state is Running with the empty record. -/
theorem invariantHoldsAtReset : Obligations.InvariantHoldsAtReset := by
  unfold Obligations.InvariantHoldsAtReset
  exact inv_reset

end Sys2Proof.Machine

/-! PROOFS. The canonical memory and the snapshot (spec/60_exceptions.md section 4): a canonical memory lists exactly
the readings that are not the reset contents, so its readings determine it; then the statement. -/

namespace Sys2Proof.Machine

/-- A reading other than the reset contents comes from an entry. -/
theorem Memory.mem_of_read_ne {m : Memory} {a : Nat} (h : Memory.read m a ≠ Config.resetByte) :
    (a, Memory.read m a) ∈ m := by
  induction m with
  | nil => exact absurd rfl h
  | cons d rest ih =>
    rw [Memory.read] at h ⊢
    split at h
    case isTrue hd => simp [← hd]
    case isFalse hd =>
      rw [if_neg hd]
      exact List.mem_cons_of_mem d (ih h)

/-- With the addresses rising, no entry hides another of the same address. -/
theorem Memory.read_of_mem {m : Memory} (h : m.Pairwise (fun c d => c.1 < d.1)) {c : Host.Cell} (hc : c ∈ m) :
    Memory.read m c.1 = c.2 := by
  induction m with
  | nil => cases hc
  | cons d rest ih =>
    obtain ⟨hd, hrest⟩ := List.pairwise_cons.mp h
    rw [Memory.read]
    rcases List.mem_cons.mp hc with rfl | hc
    · rw [if_pos rfl]
    · rw [if_neg (hd c hc).ne, ih hrest hc]

/-- Two canonical memories with the same 16 readings have the same entries. -/
theorem Memory.mem_of_read_eq {m₁ m₂ : Memory} (h₁ : Memory.wf m₁)
    (hread : ∀ a, a < Config.memCells → Memory.read m₁ a = Memory.read m₂ a) {c : Host.Cell} (hc : c ∈ m₁) :
    c ∈ m₂ := by
  obtain ⟨hrising, hcells⟩ := h₁
  obtain ⟨hlt, hne⟩ := hcells c hc
  have hread₂ : Memory.read m₂ c.1 = c.2 := (hread c.1 hlt).symm.trans (Memory.read_of_mem hrising hc)
  have hmem := Memory.mem_of_read_ne (hread₂ ▸ hne)
  rwa [hread₂] at hmem

/-- The readings of the 16 cells determine a canonical memory. -/
theorem Memory.eq_of_read_eq {m₁ m₂ : Memory} (h₁ : Memory.wf m₁) (h₂ : Memory.wf m₂)
    (hread : ∀ a, a < Config.memCells → Memory.read m₁ a = Memory.read m₂ a) : m₁ = m₂ :=
  List.Pairwise.eq_of_mem_iff h₁.1 h₂.1 fun _ =>
    ⟨Memory.mem_of_read_eq h₁ hread, Memory.mem_of_read_eq h₂ fun a ha => (hread a ha).symm⟩

theorem memRead_eq_of_snapshot_eq {s t : State} (h : s.snapshot = t.snapshot) (a : Nibble) :
    s.memRead a = t.memRead a := by
  rw [← snapshot_memory_getElem_toNat s a, ← snapshot_memory_getElem_toNat t a, h]

/-- Settles O15: equal snapshots show the same 16 readings, which determine the canonical memory, and the five other
elements are the snapshot's own. -/
theorem snapshotDeterminesState : Obligations.SnapshotDeterminesState := by
  unfold Obligations.SnapshotDeterminesState
  intro s t hs ht h
  have hmemory : s.memory = t.memory :=
    Memory.eq_of_read_eq hs ht fun a ha => memRead_eq_of_snapshot_eq h (BitVec.ofNatLT a ha)
  obtain ⟨-, hregister, hbcd, hpc, hrun, hfault⟩ := Snapshot.mk.inj h
  cases s
  cases t
  rw [State.mk.injEq]
  exact ⟨hmemory, hregister, hbcd, hpc, hrun, hfault⟩

end Sys2Proof.Machine

/-! PROOFS. What the next step executes (spec/20_memory.md section 5, spec/42_shift_shl.md R58,
spec/70_reset_and_hazards.md section 3): a store that the next fetch sees, the wrap from cell 15 to cell 0, an
instruction's byte after a shift, and the jump to itself. -/

namespace Sys2Proof.Machine

/-! ## The state after an advancing instruction -/

/-- All kinds but Jmp and Jz end in the default advance (40_engine_cycle.md R47). -/
theorem exec_pc_of_not_transfer {i : Instr} {s t : State} (h : exec i s = .next t) (hk : i.kind ∉ [Kind.jmp, .jz]) :
    t.pc = nextPc s.pc := by
  cases i with
  | jmp n | jz n => simp [Instr.kind] at hk
  | add n | and n | shl n | disp n | load n | str n => cases h; rfl

/-- A step that is one write and the default advance leaves the written byte for the very next fetch. -/
theorem store_seen_by_next_step {s : State} {n : Nibble} {v : Byte} (hs : s.runState = .running)
    (h : step s = .next (s.memWrite n v).advance) : ∃ t, step s = .next t ∧ t.memRead n = v ∧
      step t = exec (decode (t.memRead t.pc)) t ∧ (n = s.pc + 1 → step t = exec (decode v) t) := by
  have hcell : (s.memWrite n v).advance.memRead n = v := memRead_memWrite_self s n v
  have hnext : step (s.memWrite n v).advance =
      exec (decode ((s.memWrite n v).advance.memRead (s.pc + 1))) (s.memWrite n v).advance := step_of_running hs
  refine ⟨_, h, hcell, hnext, ?_⟩
  rintro rfl
  rw [hnext, hcell]

/-! ## The statements about the next step -/

/-- Settles O25: the new byte is twice the canonical byte modulo 256, whose fields the decoder reads. -/
theorem shlRewritesInstructions : Obligations.ShlRewritesInstructions := by
  unfold Obligations.ShlRewritesInstructions
  intro i n s hcell
  have hk := i.kind.index_lt
  have hn := i.operand.isLt
  have hbyte : ((s.memWrite n (aluShl (s.memRead n))).advance.memRead n).toNat =
      2 * (16 * i.kind.index + i.operand.toNat) % 256 := by
    rw [advance_memRead, memRead_memWrite_self, aluShl_toNat, hcell, encode_toNat]
  refine ⟨_, exec_shl n s, ?operand, ?index, ?bit7⟩
  case operand =>
    rw [decode_operand_toNat, hbyte]
    omega
  case index =>
    rw [decode_kind_index, hbyte]
    split <;> omega
  case bit7 =>
    rw [← Bool.not_eq_false, bit7_clear_iff, hbyte]
    omega

/-- Settles O30: the instruction ends in the default advance and keeps the machine Running, and `15 + 1` is cell 0. -/
theorem topOfMemoryWrapsToCellZero : Obligations.TopOfMemoryWrapsToCellZero := by
  unfold Obligations.TopOfMemoryWrapsToCellZero
  intro s hs hpc hk
  obtain ⟨t, ht⟩ := exists_exec_eq_next s.fetchInstr s
  have htpc : t.pc = 0#4 := by
    rw [exec_pc_of_not_transfer ht hk, hpc]
    rfl
  have hne : s.fetchInstr.kind ≠ .jz := fun hjz => hk (by simp [hjz])
  obtain ⟨hkept, -⟩ := exec_keeps_runState_fault ht hne
  have hrun : t.runState = .running := hkept.trans hs
  refine ⟨t, (step_of_running hs).trans ht, htpc, hrun, ?_⟩
  rw [step_of_running hrun, State.fetchInstr, fetchByte_eq, htpc]

/-- Settles O31: Str and Shl are both one write and the default advance. -/
theorem storeSeenByTheNextFetch : Obligations.StoreSeenByTheNextFetch := by
  unfold Obligations.StoreSeenByTheNextFetch
  intro s n hs
  exact ⟨fun hi => store_seen_by_next_step hs (step_of_fetch_str hs hi),
    fun hi => store_seen_by_next_step hs (step_of_fetch_shl hs hi)⟩

/-- Settles O34: while Running the jump writes the old pc, while Halted nothing is executed; both leave the state. -/
theorem jumpToSelfParks : Obligations.JumpToSelfParks := by
  unfold Obligations.JumpToSelfParks
  intro s hi
  apply core_run_of_step_self
  cases hs : s.runState with
  | halted => exact step_of_halted hs
  | running => rw [step_of_running hs, hi, exec_jmp, State.setPc_self]

end Sys2Proof.Machine

/-! PROOFS. The opcode map and the readings of a byte (spec/30_encoding.md R33, R34, spec/00_scope.md section 5): the
byte with bit 7 set, a byte as the sum of its bits, then the four statements. -/

namespace Sys2Proof

/-- The decoder looks only at the low seven bits (30_encoding.md R33). -/
theorem decode_congr_low_bits {a b : Byte} (h : a.toNat % 128 = b.toNat % 128) : decode a = decode b :=
  decode_eq_iff_low_bits.mpr (h.trans (encode_decode_toNat b).symm)

theorem toNat_or_0x80_mod (b : Byte) : (b ||| 0x80#8).toNat % 128 = b.toNat % 128 :=
  calc (b.toNat ||| 0x80) % 2 ^ 7
    _ = b.toNat % 2 ^ 7 ||| 0 := Nat.or_mod_two_pow
    _ = b.toNat % 128 := Nat.or_zero _

/-- The low `k` bits of a number are the sum of their powers of two. -/
theorem sum_testBit_range (x k : Nat) :
    ((List.range k).map fun i => if x.testBit i then 2 ^ i else 0).sum = x % 2 ^ k := by
  induction k with
  | zero => simp [Nat.mod_one]
  | succ k ih =>
    have hbit : (if x.testBit k then 2 ^ k else 0) = 2 ^ k * (x / 2 ^ k % 2) := by
      rw [← Nat.toNat_testBit]
      cases x.testBit k <;> simp
    rw [List.sum_range_succ, ih, hbit, Nat.mod_pow_succ]

/-! ## The statements about bytes -/

/-- Settles O2: a byte matches a row exactly when it is of the row's kind, and the canonical byte is sixteen times the
row's place plus the operand. -/
theorem opcodeMapRows : Obligations.OpcodeMapRows := by
  unfold Obligations.OpcodeMapRows
  refine ⟨fun b => ?rows, fun n => ?bytes⟩
  case rows =>
    exact ⟨opcode_match_iff_kind .add b, opcode_match_iff_kind .and b, opcode_match_iff_kind .shl b,
      opcode_match_iff_kind .disp b, opcode_match_iff_kind .load b, opcode_match_iff_kind .str b,
      opcode_match_iff_kind .jmp b, opcode_match_iff_kind .jz b⟩
  case bytes =>
    exact ⟨encode_toNat (.add n), encode_toNat (.and n), encode_toNat (.shl n), encode_toNat (.disp n),
      encode_toNat (.load n), encode_toNat (.str n), encode_toNat (.jmp n), encode_toNat (.jz n)⟩

/-- Settles O3: the twelve words are decoded by computation. -/
theorem wordsOfTheDecoderTable : Obligations.WordsOfTheDecoderTable := by
  unfold Obligations.WordsOfTheDecoderTable
  decide

/-- Settles O8: clearing bit 7 and setting it both keep the low seven bits. -/
theorem aliasDecodesAsCanonical : Obligations.AliasDecodesAsCanonical := by
  unfold Obligations.AliasDecodesAsCanonical
  intro b
  constructor
  · apply decode_congr_low_bits
    rw [toNat_and_0x7F, Nat.mod_mod]
  · exact decode_congr_low_bits (toNat_or_0x80_mod b).symm

end Sys2Proof

namespace Sys2Proof.Machine

/-- The signed reading is the two's-complement value. -/
theorem sint_eq_toInt (b : Byte) : sint b = b.toInt := by
  rw [sint, BitVec.toInt_eq_msb_cond, BitVec.msb_eq_getLsbD_last]
  rfl

/-- Settles O5: the eight bits sum to the byte, and the signed reading is the two's-complement value, whose range the
library gives. -/
theorem byteReadings : Obligations.ByteReadings := by
  unfold Obligations.ByteReadings
  intro b
  refine ⟨?sum, rfl, sint_eq_toInt b, ?lower, ?upper⟩
  case sum => exact (Nat.mod_eq_of_lt b.isLt).symm.trans (sum_testBit_range b.toNat 8).symm
  case lower =>
    rw [sint_eq_toInt]
    exact BitVec.le_toInt b
  case upper =>
    rw [sint_eq_toInt]
    exact Int.le_of_lt_add_one BitVec.toInt_lt

end Sys2Proof.Machine

/-! PROOFS. Who changes the machine (spec/00_scope.md section 3, spec/10_state.md section 6). -/

namespace Sys2Proof.Machine

/-- Settles O42: there is one agent; of the operations, Reset, the one Load and a step of the engine are all that
`Session.apply_cases` leaves once Snapshot, which changes nothing, is out. -/
theorem engineIsTheOnlyMutator : Obligations.EngineIsTheOnlyMutator := by
  unfold Obligations.EngineIsTheOnlyMutator
  refine ⟨fun a s => ?agent, fun op => ?operations, fun c d op h hne => ?changes⟩
  case agent =>
    obtain rfl := Agent.eq_engine a
    exact ⟨rfl, Agent.engine_step s⟩
  case operations =>
    cases op with
    | reset => exact .inl rfl
    | load image => exact .inr (.inl ⟨image, rfl⟩)
    | step => exact .inr (.inr (.inl rfl))
    | snapshot => exact .inr (.inr (.inr rfl))
  case changes =>
    rcases Session.apply_cases h with
      ⟨hop, -⟩ | ⟨image, hop, hphase, rfl⟩ | ⟨hop, hphase, t, ht, rfl⟩ | ⟨-, rfl⟩
    · exact .inl hop
    · exact .inr (.inl ⟨image, hop, hphase, rfl⟩)
    · exact .inr (.inr ⟨hop, hphase, ht⟩)
    · exact absurd rfl hne

end Sys2Proof.Machine
